-- ==== Sys2Proof/Word.lean ====
section
/-! DEFINITION. The widths of the block's words (00_scope.md rules R5 and R7; 30_encoding.md rules R45 and R49).
Every value of the block is an unsigned bit vector; bit 0 is the least significant bit. -/

namespace Sys2Proof

/-- The command word `CMD`: `CMD_W` = 32 bits (R5, R45). -/
abbrev Command := BitVec 32

/-- The response word `RSP`: `RSP_W` = 10 bits (R5, R49). -/
abbrev ResponseWord := BitVec 10

/-- A frame: three bytes, `FRAME_BITS` = 24 bits, bit 23 the most significant bit of byte0 (R5, R7, R32). -/
abbrev Frame := BitVec 24

/-- A table index: `KEY_W` = 8 bits (R5, R30). -/
abbrev Index := BitVec 8

/-- A table entry, and a value of the 6-bit CRC register: `CRC_W` = 6 bits (R5, R12, R16). -/
abbrev Entry := BitVec 6

end Sys2Proof
end

