-- ==== Sys2Proof/Config.lean ====
section
/-! DEFINITION. What is fixed for the block: the hardwired constants, the numeric parameters of 00_scope.md
rule R5, the working registers of the three units (10_state.md rules R15, R16, R19), and the values those registers
happen to hold when a command starts, which the spec leaves unspecified (10_state.md rule R22). -/

namespace Sys2Proof.Config

/-- The generator polynomial 0x67 = x^6+x^5+x^2+x+1, hardwired (R5, R10). -/
def POLY : BitVec 7 := 0x67#7

/-- The starting register value of both verifiers, hardwired (R5, R11; 90_conflicts.md C5). -/
def SEED : Entry := 0x25#6

/-- Entries of the lookup table (R5). -/
def TABLE_ENTRIES : Nat := 256

/-- Bytes in a frame (R5). -/
def FRAME_BYTES : Nat := 3

/-- Division steps per table entry (R5). -/
def DIV_ITERS : Nat := 8

/-- The left shift applied to POLY in a division step, and the right shift that extracts the entry (R5). -/
def POLY_SHIFT : Nat := 2

/-- The left shift applied to the 6-bit register when the table index is formed (R5). -/
def FOLD_SHIFT : Nat := 2

/-- Bits consumed per bit-serial step (R5). -/
def GROUP_W : Nat := 6

/-- Bit-serial steps per frame (R5). -/
def GROUPS : Nat := 4

/-! ## The working registers

They exist only inside one command: a model keeps them as local variables of the command and not as fields of the
state (10_state.md rule R20; 92_eei_decisions.md D13). -/

/-- The working registers of the Table Builder (R15): `W` the working value, `I` the index of the entry being
computed, `J` the division step within the entry. -/
structure BuilderRegs where
  W : BitVec 16
  I : Index
  J : BitVec 3
  deriving DecidableEq, Repr, Inhabited

/-- The working registers of the Table-Driven Verifier (R16): `R` the CRC register, `IDX` the table index, `K`
which frame byte is being folded, `F` the frame. -/
structure FoldRegs where
  R   : Entry
  IDX : Index
  K   : BitVec 2
  F   : Frame
  deriving DecidableEq, Repr, Inhabited

/-- The working registers of the Bit-Serial Verifier (R19): the state vector `C[0..6]`, its snapshot `CH[0..6]`,
the group's bits `D[0..5]`, the step number `S` and the frame `F`. -/
structure SerialRegs where
  C  : Vector Bool 7
  CH : Vector Bool 7
  D  : Vector Bool 6
  S  : BitVec 2
  F  : Frame
  deriving DecidableEq, Repr, Inhabited

/-! ## Free values

What the working registers hold when a command starts is unspecified (10_state.md rule R22;
93_implementation_defined.md U2, treatment 'any value'). Each constant has no body and is applied to the number of
responses returned so far, so every command may find other contents. `notes/assumptions/2.md`. -/

/-- What the Table Builder's registers hold when the (n+1)-th command starts: any value. -/
opaque builderLeftover (n : Nat) : BuilderRegs

/-- What the Table-Driven Verifier's registers hold when the (n+1)-th command starts: any value. -/
opaque foldLeftover (n : Nat) : FoldRegs

/-- What the Bit-Serial Verifier's registers hold when the (n+1)-th command starts: any value. -/
opaque serialLeftover (n : Nat) : SerialRegs

end Sys2Proof.Config
end

