-- ==== Sys2Proof/Syntax.lean ====
section
/-! DEFINITION. The four commands of the block (30_encoding.md rules R46 to R48), and the opcode table as rows of
mask and pattern (R48; spec/opcode_table.json). -/

namespace Sys2Proof

/-- A decoded command: one constructor per row of spec/opcode_table.json. The operand types are as wide as the
operand fields, so a short or long frame, or an index beyond 255, cannot be expressed (20_memory.md rule R36). -/
inductive Instr where
  /-- BUILD_TABLE: no operand (R47). -/
  | buildTable
  /-- VERIFY_TABLE: the 24-bit frame (R46). -/
  | verifyTable (frame : Frame)
  /-- VERIFY_DIRECT: the 24-bit frame (R46). -/
  | verifyDirect (frame : Frame)
  /-- READ_TABLE: the 8-bit table index (R47). -/
  | readTable (idx : Index)
  deriving DecidableEq, Repr

/-- The four mnemonics (R48, R52). -/
inductive Mnemonic where
  | BUILD_TABLE
  | VERIFY_TABLE
  | VERIFY_DIRECT
  | READ_TABLE
  deriving DecidableEq, Repr

/-- The mnemonic of a command (R48). -/
def Instr.mnemonic : Instr → Mnemonic
  | .buildTable => .BUILD_TABLE
  | .verifyTable _ => .VERIFY_TABLE
  | .verifyDirect _ => .VERIFY_DIRECT
  | .readTable _ => .READ_TABLE

/-- One row of the opcode table (R48): a word `w` selects the row when `w and mask = pattern` (the spec calls
the pattern 'match'). -/
structure OpcodeRow where
  name    : Mnemonic
  pattern : Command
  mask    : Command
  deriving DecidableEq, Repr

/-- The opcode table (R48). -/
def opcodeTable : List OpcodeRow :=
  [ ⟨.BUILD_TABLE, 0x01000000#32, 0xFFFFFFFF#32⟩,
    ⟨.VERIFY_TABLE, 0x02000000#32, 0xFF000000#32⟩,
    ⟨.VERIFY_DIRECT, 0x03000000#32, 0xFF000000#32⟩,
    ⟨.READ_TABLE, 0x04000000#32, 0xFFFFFF00#32⟩ ]

/-- `w` selects the row `r`: `w and mask = match` (R48). -/
def OpcodeRow.selects (r : OpcodeRow) (w : Command) : Bool := w &&& r.mask == r.pattern

end Sys2Proof
end

