-- ==== Sys2Proof/WellFormed.lean ====
section
/-! DEFINITION. Well-formedness. The operands of `Instr` have exactly the widths of their fields, so what can be
ill-formed is a command word: 30_encoding.md rules R48 and R51. -/

namespace Sys2Proof

/-- A command is well-formed: every frame is legal (R46), every 8-bit index is legal (20_memory.md rule R36), and
BUILD_TABLE has no operand to check (R47). The types of `Instr` leave nothing else. -/
def Instr.wellFormed : Instr → Bool
  | .buildTable => true
  | .verifyTable _ => true
  | .verifyDirect _ => true
  | .readTable _ => true

/-- A command word is well-formed when it selects a row of the opcode table (R48). -/
def wordWellFormed (w : Command) : Bool := opcodeTable.any (·.selects w)

/-- The rows of the opcode table that a word selects: one at most, since the rows are disjoint (R48). -/
def rowsOf (w : Command) : List OpcodeRow := opcodeTable.filter (·.selects w)

end Sys2Proof
end

