-- ==== Sys2Proof/Decode.lean ====
section
/-! DEFINITION. The decoder (30_encoding.md rules R45 to R47, R50, R51), total on the 2^32 command words and naming
what is wrong with an illegal one, and the encoder (R48, R52). -/

namespace Sys2Proof

/-- Why a command word is ILLEGAL: the four classes of R51, whose names are the model's (DESIGN CHOICE,
notes/assumptions/7.md). The block reports all of them alike, as
IllegalCommand (60_exceptions.md rule R112). -/
inductive Illegal where
  /-- `op` = 0x00. -/
  | opZero
  /-- `op` in 0x05..0xFF. -/
  | opUnused
  /-- `op` = 0x01 with `CMD[23:0]` not zero. -/
  | buildOperandNotZero
  /-- `op` = 0x04 with `CMD[23:8]` not zero. -/
  | readUpperNotZero
  deriving DecidableEq, Repr

/-- `op` = `CMD[31:24]` (R45). -/
def opField (w : Command) : BitVec 8 := w.extractLsb' 24 8

/-- `arg` = `CMD[23:0]`; for the verifiers it is the frame, command bit n being frame bit n (R45, R46). -/
def argField (w : Command) : Frame := w.extractLsb' 0 24

/-- `arg[23:8]`, which READ_TABLE requires to be zero (R47). -/
def argUpper (w : Command) : BitVec 16 := w.extractLsb' 8 16

/-- `arg[7:0]`, READ_TABLE's index (R47). -/
def argIndex (w : Command) : Index := w.extractLsb' 0 8

/-- The class of R51 that a word matching no row belongs to. -/
def illegalClass (w : Command) : Illegal :=
  if opField w = 0x00#8 then .opZero
  else if opField w = 0x01#8 then .buildOperandNotZero
  else if opField w = 0x04#8 then .readUpperNotZero
  else .opUnused

/-- The decoder, in the order of R50's tests. It reads the command word only. -/
def decode (w : Command) : Except Illegal Instr :=
  if opField w = 0x01#8 ∧ argField w = 0#24 then .ok .buildTable
  else if opField w = 0x02#8 then .ok (.verifyTable (argField w))
  else if opField w = 0x03#8 then .ok (.verifyDirect (argField w))
  else if opField w = 0x04#8 ∧ argUpper w = 0#16 then .ok (.readTable (argIndex w))
  else .error (illegalClass w)

/-- The operation codes (R48). -/
def opCode : Mnemonic → BitVec 8
  | .BUILD_TABLE => 0x01#8
  | .VERIFY_TABLE => 0x02#8
  | .VERIFY_DIRECT => 0x03#8
  | .READ_TABLE => 0x04#8

/-- The `arg` field a command carries: the frame as it stands, the index below sixteen zero bits, or zero
(R46, R47). -/
def argOf : Instr → BitVec 24
  | .buildTable => 0#24
  | .verifyTable frame => frame
  | .verifyDirect frame => frame
  | .readTable idx => 0#16 ++ idx

/-- The command word of a command: `op` above `arg` (R45, R48). -/
def encode (i : Instr) : Command := opCode i.mnemonic ++ argOf i

/-- The instruction the decoder reads from a word whose bits are `w`, numbered as spec/opcode_table.json numbers
them: bit 0 is `CMD[0]`. Every command is one 32-bit word (R45); bits at and above `nbits` are zero. -/
def decodeTableWord (nbits w : Nat) : Option Instr :=
  match decode ((BitVec.ofNat nbits w).setWidth 32) with
  | .ok i => some i
  | .error _ => none

end Sys2Proof
end

