-- ==== Sys2Proof/Machine/State.lean ====
section
/-! DEFINITION. The state of the block (10_state.md rules R12, R13, R20, R22), with the command port through which the
host issues commands and takes responses (00_scope.md rule R6), the ways a step can stop, and the state after reset. -/

namespace Sys2Proof.Machine

/-- A listed table entry: its index and its 6-bit value. The addressable unit of the block's one address space is
a 6-bit entry, not a byte (20_memory.md rules R30, R35). -/
abbrev TableCell := Nat × Entry

/-- The lookup table TABLE (R12): the entries that hold a value, in rising order of index. An index that is not
listed holds no value (R12, R22: `none`, never zero). `Table.wf` in Machine/Ops.lean is the canonical form. -/
abbrev Table := List TableCell

/-- What the host does to the block: it issues one command word (00_scope.md rule R6; 30_encoding.md rule R45), or it
resets the block, between two commands (70_reset_and_hazards.md rule R130). -/
inductive HostEvent where
  | command (cmd : Command)
  | reset
  deriving DecidableEq, Repr

/-- The state of the machine. `TABLE` and `TABLE_BUILT` are the whole persistent state of the block (10_state.md: "Nothing
else persists"); `pending` and `responses` are its command port. -/
structure State where
  /-- TABLE_BUILT, one bit (R13). -/
  TABLE_BUILT : Bool
  /-- TABLE, 256 entries of 6 bits (R12, R30). -/
  TABLE : Table
  /-- What the host will do next, in the order it chooses (10_state.md rule R17), the next event first. -/
  pending : List HostEvent
  /-- The response words returned so far, one per command taken, the oldest first (30_encoding.md rule R49). -/
  responses : List ResponseWord
  deriving DecidableEq, Repr

/-- Where the machine stops. The spec's own two faults, IllegalCommand and TableNotBuilt, are not here: they are
responses, after which the block takes the next command (60_exceptions.md rules R113, R116). -/
inductive Fault where
  /-- `memRead` with TABLE_BUILT = 1 found no value at the index. The invariant of 10_state.md rule R14 rules such a
  state out, so no run from reset and no run from a state of that invariant ends here (20_memory.md rule R33: "a read
  that does not fault always finds a value"). Safe: the model stops and gives no value. -/
  | entryWithoutValue (idx : Index)
  deriving DecidableEq, Repr

/-- Why an instruction has no meaning. -/
inductive Refusal where
  /-- Raised by an arm of `exec` for an instruction without a meaning: no arm does. Safe. -/
  | notModelled (mnemonic : String)
  deriving DecidableEq, Repr

/-- The machine right after reset (R22, R130): TABLE_BUILT = 0, no entry of TABLE holds a value. The host has issued
nothing yet and no response has been returned. -/
def State.reset : State where
  TABLE_BUILT := false
  TABLE := []
  pending := []
  responses := []

end Sys2Proof.Machine
end

