-- ==== Sys2Proof/Machine/Ops.lean ====
section
/-! DEFINITION. The shared operations: reading and writing the table (20_memory.md rules R33, R34), responding
(30_encoding.md rule R49), taking one of the block's two faults (60_exceptions.md rules R111 to R113), and the reset
event (70_reset_and_hazards.md rule R130). -/

namespace Sys2Proof.Machine

/-! ## The table -/

/-- What an index that is not listed reads as: no value (10_state.md rules R12, R22; 93_implementation_defined.md
U1). -/
def unlistedEntry : Option Entry := none

/-- The value an index holds, if it holds one. -/
def Table.get : Table → Nat → Option Entry
  | [], _ => unlistedEntry
  | (k, v) :: rest, i => if k = i then some v else Table.get rest i

/-- The table with `v` at index `i`; every other index as before (R34). -/
def Table.set : Table → Nat → Entry → Table
  | [], i, v => [(i, v)]
  | (k, u) :: rest, i, v =>
    if i < k then (i, v) :: (k, u) :: rest
    else if i = k then (i, v) :: rest
    else (k, u) :: Table.set rest i v

/-- Every index listed is above `lo`, and the indexes rise strictly. -/
def Table.risesAbove : Nat → Table → Bool
  | _, [] => true
  | lo, (k, _) :: rest => decide (lo < k) && Table.risesAbove k rest

/-- The indexes rise strictly. -/
def Table.rises : Table → Bool
  | [] => true
  | (k, _) :: rest => Table.risesAbove k rest

/-- The canonical form: indexes strictly rising and all in 0..255 (R30). No listed entry can equal what an unlisted
index reads as, since that is no value. -/
def Table.wf (t : Table) : Bool := t.rises && t.all (fun c => decide (c.1 < Config.TABLE_ENTRIES))

/-! ## Responses -/

/-- The block's two faults (60_exceptions.md section 2). -/
inductive Cause where
  | illegalCommand
  | tableNotBuilt
  deriving DecidableEq, Repr

/-- What a command answers (R49's inductive type): the table is built, the verification result, a table entry, or one
of the two faults. There is no constructor for status 3 (93_implementation_defined.md U3). -/
inductive Response where
  | doneBuild
  | doneVerify (valid : Bool)
  | doneRead (entry : Entry)
  | faulted (cause : Cause)
  deriving DecidableEq, Repr

/-- The status field (R49): 0 DONE, 1 IllegalCommand, 2 TableNotBuilt. -/
def Response.status : Response → BitVec 2
  | .doneBuild => 0#2
  | .doneVerify _ => 0#2
  | .doneRead _ => 0#2
  | .faulted .illegalCommand => 1#2
  | .faulted .tableNotBuilt => 2#2

/-- The data field (R49): 0x00 for BUILD_TABLE and for a fault, the verification result in bit 0, or the entry
zero-extended to 8 bits (20_memory.md rule R35). -/
def Response.data : Response → BitVec 8
  | .doneBuild => 0x00#8
  | .doneVerify valid => (BitVec.ofBool valid).setWidth 8
  | .doneRead entry => entry.setWidth 8
  | .faulted _ => 0x00#8

/-- `RSP = {status, data}` (R49). -/
def Response.word (r : Response) : ResponseWord := r.status ++ r.data

/-- `respond(status, data)`: the command ends and its response word is returned (00_scope.md rule R8). -/
def respond (r : Response) (s : State) : State := { s with responses := s.responses ++ [r.word] }

/-! ## Faults -/

/-- Taking a fault (60_exceptions.md rule R113): it is delivered in the response of the faulting command and nowhere
else; TABLE and TABLE_BUILT stay as they are, nothing is saved, no mode changes and control goes nowhere. There is
nothing to return from: the block is ready for the next command, as after a DONE response (R116). -/
def takeFault (c : Cause) (s : State) : State := respond (.faulted c) s

/-- Why a command ends without the response it works for: it raises one of the block's faults, or the model stops
because an entry of a built table holds no value. -/
inductive Stop where
  | raised (c : Cause)
  | noValue (idx : Index)
  deriving DecidableEq, Repr

/-- The end of a command: its response is returned, or the fault it raised is taken (R8), or the model stops. -/
def finish (r : Except Stop Response) (s : State) : Host.Outcome State Fault Refusal :=
  match r with
  | .ok response => .next (respond response s)
  | .error (.raised c) => .next (takeFault c s)
  | .error (.noValue idx) => .fault (.entryWithoutValue idx)

/-! ## Access to the table -/

/-- The check that VERIFY_TABLE and READ_TABLE make before any table entry is read (60_exceptions.md rule R111). -/
def requireBuilt (s : State) : Except Stop Unit :=
  if s.TABLE_BUILT then .ok () else .error (.raised .tableNotBuilt)

/-- `MemRead(i, 1)` (20_memory.md rule R33). It has no side effect. -/
def memRead (i : Index) (s : State) : Except Stop Entry :=
  match requireBuilt s with
  | .error e => .error e
  | .ok () =>
    match Table.get s.TABLE i.toNat with
    | some v => .ok v
    | none => .error (.noValue i)

/-- `MemWrite(i, 1, v)` (20_memory.md rule R34). -/
def memWrite (i : Index) (v : Entry) (s : State) : State :=
  { s with TABLE := Table.set s.TABLE i.toNat v }

/-- `TABLE_BUILT <- 1` (40_table_builder.md rule R63). -/
def setBuilt (s : State) : State := { s with TABLE_BUILT := true }

/-! ## Reset -/

/-- The reset event (70_reset_and_hazards.md rule R130): TABLE_BUILT <- 0 and every table entry is left without a
value; no response is returned. The commands the host issues afterwards, and the responses it already has, are the
host's. -/
def resetBlock (s : State) : State := { s with TABLE_BUILT := false, TABLE := [] }

end Sys2Proof.Machine
end

