-- ==== Sys2Proof/Machine/Operands.lean ====
section
/-! DEFINITION. How a command takes its operand apart: the bytes of a frame (20_memory.md rule R32), its four 6-bit
groups and their bits (42_bit_serial_verifier.md rules R80, R81), and the table index a frame byte forms
(41_table_verifier.md rule R70). -/

namespace Sys2Proof.Machine

/-- Byte `k` of the frame: byte0 = F[23:16], byte1 = F[15:8], byte2 = F[7:0] (R32). `k` runs over 0, 1, 2 (R16). -/
def frameByte (f : Frame) (k : BitVec 2) : BitVec 8 := f.extractLsb' (16 - 8 * k.toNat) 8

/-- `Group(F, s) = F[23 - 6*s : 18 - 6*s]` (R80). -/
def group (f : Frame) (s : BitVec 2) : BitVec 6 := f.extractLsb' (18 - Config.GROUP_W * s.toNat) 6

/-- `GroupBits(g)`: `d[k] = g[5 - k]`, the most significant bit first (R81). -/
def groupBits (g : BitVec 6) : Vector Bool 6 := #v[g[5], g[4], g[3], g[2], g[1], g[0]]

/-- `FoldIndex(r, b) = trunc_8((zext_8(r) << 2) xor b)` (R70). -/
def foldIndex (r : Entry) (b : BitVec 8) : Index := (r.setWidth 8 <<< Config.FOLD_SHIFT) ^^^ b

end Sys2Proof.Machine
end

