-- ==== Sys2Proof/Machine/Flags.lean ====
section
/-! DEFINITION. The block has no condition codes (10_state.md rule R18). The one boolean it computes is the
verification result: whether the residual is zero (43_equivalence_properties.md rule R97), told from the 6-bit
register by the table path and from `c[0..5]` by the bit-serial path (42_bit_serial_verifier.md rules R82, R86). -/

namespace Sys2Proof.Machine

/-- The table path's test (41_table_verifier.md rule R73): the register is zero. -/
def registerIsZero (r : Entry) : Bool := r == 0#6

/-- The bit-serial path's test (R86): `c[0]` to `c[5]` are all false. `c[6]` is not part of it. -/
def vectorIsZero (cv : Vector Bool 7) : Bool :=
  !cv[0] && !cv[1] && !cv[2] && !cv[3] && !cv[4] && !cv[5]

/-- `Num(c) = {c[5], c[4], c[3], c[2], c[1], c[0]}`, the 6-bit number that the state vector holds (R82). -/
def num (cv : Vector Bool 7) : Entry :=
  BitVec.ofBool cv[5] ++ BitVec.ofBool cv[4] ++ BitVec.ofBool cv[3] ++ BitVec.ofBool cv[2] ++ BitVec.ofBool cv[1] ++
    BitVec.ofBool cv[0]

end Sys2Proof.Machine
end

