-- ==== Sys2Proof/Machine/TableBuilder.lean ====
section
/-! DEFINITION. The Polynomial Table Builder: `DivStep` and `TableEntry` (40_table_builder.md rules R60, R61), the run of
the unit's working registers (10_state.md rule R15), and the commands BUILD_TABLE (R63) and READ_TABLE (R64). -/

namespace Sys2Proof.Machine

/-- `DivStep(w, p)` (R60). The tested bit is bit 7 (90_conflicts.md C1). -/
def divStep (w : BitVec 16) (p : BitVec 7) : BitVec 16 :=
  if w[7] then (w <<< 1) ^^^ (p.setWidth 16 <<< Config.POLY_SHIFT) else w <<< 1

/-- `W[7:2]`, the entry a finished working value holds (R61). -/
def entryOf (w : BitVec 16) : Entry := w.extractLsb' Config.POLY_SHIFT 6

/-- The working value of index `i` after `n` division steps (R61). -/
def workingValue (i : Index) : Nat → BitVec 16
  | 0 => i.setWidth 16
  | n + 1 => divStep (workingValue i n) Config.POLY

/-- `TableEntry(i)` (R61): eight division steps from `zext_16(i)`, then bits [7:2]. -/
def tableEntry (i : Index) : Entry := entryOf (workingValue i Config.DIV_ITERS)

/-- One division step of the unit: J counts it, W is divided (R15, R61). -/
def builderDivide (g : Config.BuilderRegs) (j : Nat) : Config.BuilderRegs :=
  { g with J := BitVec.ofNat 3 j, W := divStep g.W Config.POLY }

/-- The unit computes one entry: I holds its index, W is loaded from I, and J runs from 0 to 7 (R15, R61). -/
def builderEntry (i : Nat) (g : Config.BuilderRegs) : Config.BuilderRegs :=
  (List.range Config.DIV_ITERS).foldl builderDivide
    { g with I := BitVec.ofNat 8 i, W := (BitVec.ofNat 8 i).setWidth 16 }

/-- The unit computes entry `i` and writes it (R63). -/
def builderRow (p : Config.BuilderRegs × State) (i : Nat) : Config.BuilderRegs × State :=
  (builderEntry i p.1, memWrite (builderEntry i p.1).I (entryOf (builderEntry i p.1).W) p.2)

/-- The unit's run over I = 0..255, from whatever its registers hold (R63). -/
def builderRun (g : Config.BuilderRegs) (s : State) : State :=
  ((List.range Config.TABLE_ENTRIES).foldl builderRow (g, s)).2

/-- BUILD_TABLE (R63): every entry is written, then TABLE_BUILT is set, then DONE. It raises no fault. -/
def execBuildTable (s : State) : Host.Outcome State Fault Refusal :=
  finish (.ok .doneBuild) (setBuilt (builderRun (Config.builderLeftover s.responses.length) s))

/-- READ_TABLE (R64): one entry, zero-extended; TableNotBuilt when TABLE_BUILT = 0. -/
def execReadTable (idx : Index) (s : State) : Host.Outcome State Fault Refusal :=
  finish (Except.map Response.doneRead (memRead idx s)) s

end Sys2Proof.Machine
end

