-- ==== Sys2Proof/Machine/TableVerifier.lean ====
section
/-! DEFINITION. The Table-Driven Verifier: `Fold` and `CrcTable` as functions (41_table_verifier.md rules R71, R72), the
run of the unit's working registers over the table memory (10_state.md rule R16), and the command VERIFY_TABLE (R73). -/

namespace Sys2Proof.Machine

/-- `Fold(r, b)` over a built table, whose entries are `TableEntry` (R71). -/
def fold (r : Entry) (b : BitVec 8) : Entry := tableEntry (foldIndex r b)

/-- The residual reached from the register value `r` over the three bytes of a frame, byte0 first (R72). -/
def crcTableFrom (r : Entry) (f : Frame) : Entry :=
  fold (fold (fold r (frameByte f 0)) (frameByte f 1)) (frameByte f 2)

/-- `CrcTable(F)`: the residual of the table path (R72). The hardware never returns it (R74). -/
def crcTable (f : Frame) : Entry := crcTableFrom Config.SEED f

/-- The unit is loaded at the start of a command: R with SEED, F with the frame (R16, R72). -/
def foldLoad (f : Frame) (g : Config.FoldRegs) : Config.FoldRegs := { g with R := Config.SEED, F := f }

/-- The unit folds frame byte `k`: K counts it, IDX is formed from R and the byte, and R is read from the table (R70,
R71). -/
def foldByte (s : State) (g : Config.FoldRegs) (k : Nat) : Except Stop Config.FoldRegs :=
  (memRead (foldIndex g.R (frameByte g.F (BitVec.ofNat 2 k))) s).map fun v =>
    { g with K := BitVec.ofNat 2 k, IDX := foldIndex g.R (frameByte g.F (BitVec.ofNat 2 k)), R := v }

/-- The unit's run over K = 0, 1, 2, from whatever its registers hold. TABLE_BUILT is checked before any table read
(R73). -/
def foldRun (g : Config.FoldRegs) (f : Frame) (s : State) : Except Stop Config.FoldRegs :=
  (requireBuilt s).bind fun _ => (List.range Config.FRAME_BYTES).foldlM (foldByte s) (foldLoad f g)

/-- VERIFY_TABLE (R73): DONE with the verification result; TableNotBuilt when TABLE_BUILT = 0. -/
def execVerifyTable (f : Frame) (s : State) : Host.Outcome State Fault Refusal :=
  finish ((foldRun (Config.foldLeftover s.responses.length) f s).map fun g => .doneVerify (registerIsZero g.R)) s

end Sys2Proof.Machine
end

