-- ==== Sys2Proof/Machine/BitSerial.lean ====
section
/-! DEFINITION. The Bit-Serial Verifier: `Step6`, `InitC` and `CrcDirect` (42_bit_serial_verifier.md rules R83 to R85), the
run of the unit's working registers (10_state.md rule R19), and the command VERIFY_DIRECT (R87). -/

namespace Sys2Proof.Machine

/-- `Step6(ch, d)`: the seven equations of R83, listed from `c[0]` to `c[6]`. Every right side reads the previous
state `ch`. -/
def step6 (ch : Vector Bool 7) (d : Vector Bool 6) : Vector Bool 7 :=
  #v[ch[0] ^^ ch[1] ^^ ch[2] ^^ ch[3] ^^ d[2] ^^ d[3] ^^ d[4] ^^ d[5],
     ch[0] ^^ ch[4] ^^ d[1] ^^ d[5],
     ch[0] ^^ ch[2] ^^ ch[3] ^^ ch[5] ^^ d[0] ^^ d[2] ^^ d[3] ^^ d[5],
     ch[1] ^^ ch[3] ^^ ch[4] ^^ d[1] ^^ d[2] ^^ d[4],
     ch[2] ^^ ch[4] ^^ ch[5] ^^ d[0] ^^ d[1] ^^ d[3],
     ch[0] ^^ ch[1] ^^ ch[2] ^^ ch[5] ^^ d[0] ^^ d[3] ^^ d[4] ^^ d[5],
     ch[5]]

/-- `InitC`: the Seed re-expressed, with the carry slot at 0 (R84). -/
def initC : Vector Bool 7 := #v[true, false, true, false, false, true, false]

/-- The state of the bit-serial path after the first `n` groups of the frame (R85); `n` runs from 0 to 4. -/
def serialState (f : Frame) : Nat → Vector Bool 7
  | 0 => initC
  | n + 1 => step6 (serialState f n) (groupBits (group f (BitVec.ofNat 2 n)))

/-- `CrcDirect(F)`: the state after the four groups (R85). The hardware never returns it (R88). -/
def crcDirect (f : Frame) : Vector Bool 7 := serialState f Config.GROUPS

/-- The unit is loaded at the start of a command: C with the initial pattern, F with the frame (R19, R85). -/
def serialLoad (f : Frame) (g : Config.SerialRegs) : Config.SerialRegs := { g with C := initC, F := f }

/-- The unit consumes one group: S counts it, D takes the group's bits, CH the snapshot of C, and C is recomputed from
the snapshot (R83, R85). -/
def serialStep (g : Config.SerialRegs) (n : Nat) : Config.SerialRegs :=
  { g with
    S := BitVec.ofNat 2 n
    D := groupBits (group g.F (BitVec.ofNat 2 n))
    CH := g.C
    C := step6 g.C (groupBits (group g.F (BitVec.ofNat 2 n))) }

/-- The unit's run over S = 0..3, from whatever its registers hold (R85). It reads neither TABLE nor TABLE_BUILT. -/
def serialRun (g : Config.SerialRegs) (f : Frame) : Config.SerialRegs :=
  (List.range Config.GROUPS).foldl serialStep (serialLoad f g)

/-- VERIFY_DIRECT (R87): DONE with the verification result. It raises no fault, in any state. -/
def execVerifyDirect (f : Frame) (s : State) : Host.Outcome State Fault Refusal :=
  finish (.ok (.doneVerify (vectorIsZero (serialRun (Config.serialLeftover s.responses.length) f).C))) s

end Sys2Proof.Machine
end

