-- ==== Sys2Proof/Machine/Dispatch.lean ====
section
/-! DEFINITION. One arm per command, each a call of its meaning (30_encoding.md rule R48). -/

namespace Sys2Proof.Machine

def exec (i : Instr) (s : State) : Host.Outcome State Fault Refusal :=
  match i with
  | .buildTable => Sys2Proof.Machine.execBuildTable s
  | .verifyTable frame => Sys2Proof.Machine.execVerifyTable frame s
  | .verifyDirect frame => Sys2Proof.Machine.execVerifyDirect frame s
  | .readTable idx => Sys2Proof.Machine.execReadTable idx s

end Sys2Proof.Machine
end

