-- ==== Sys2Proof/Machine/Step.lean ====
section
/-! DEFINITION. One step: the block takes the host's next event and completes it (00_scope.md rule R6; 20_memory.md rule
R38). -/

namespace Sys2Proof.Machine

/-- A command word is taken: it is decoded from the word alone, before anything else (30_encoding.md rule R50;
60_exceptions.md rule R114); an illegal word raises IllegalCommand (R112), any other runs to its response. -/
def runCommand (w : Command) (s : State) : Host.Outcome State Fault Refusal :=
  match decode w with
  | .ok i => exec i s
  | .error _ => .next (takeFault .illegalCommand s)

/-- One step. With nothing pending the block is idle and keeps TABLE and TABLE_BUILT (60_exceptions.md rule R120); a
reset is taken between commands (70_reset_and_hazards.md rule R130). -/
def step (s : State) : Host.Outcome State Fault Refusal :=
  match s.pending with
  | [] => .next s
  | .reset :: rest => .next (resetBlock { s with pending := rest })
  | .command w :: rest => runCommand w { s with pending := rest }

/-- `s` with the 32-bit word whose bits are `w` (those at and above `nbits` zero) as the host's next command. What the
host had pending follows it. -/
def State.withFetchWord (s : State) (nbits w : Nat) : State :=
  { s with pending := .command ((BitVec.ofNat nbits w).setWidth 32) :: s.pending }

end Sys2Proof.Machine
end

