-- ==== Sys2Proof/Machine/Assembly.lean ====
section
/-! DEFINITION. The assembler syntax of 30_encoding.md rule R52: one command per line; mnemonics in capitals; numbers in
hexadecimal with `0x`; a frame written as its three bytes byte0, byte1, byte2 separated by commas; a comment starts with
`;`. What R52 leaves open is notes/assumptions/8.md's (DESIGN CHOICE). A line is a list of characters. There are no
pseudo-instructions. -/

namespace Sys2Proof.Machine

/-- The mnemonics as text (R52). -/
def mnemonicText : Mnemonic → List Char
  | .BUILD_TABLE => ['B', 'U', 'I', 'L', 'D', '_', 'T', 'A', 'B', 'L', 'E']
  | .VERIFY_TABLE => ['V', 'E', 'R', 'I', 'F', 'Y', '_', 'T', 'A', 'B', 'L', 'E']
  | .VERIFY_DIRECT => ['V', 'E', 'R', 'I', 'F', 'Y', '_', 'D', 'I', 'R', 'E', 'C', 'T']
  | .READ_TABLE => ['R', 'E', 'A', 'D', '_', 'T', 'A', 'B', 'L', 'E']

/-- The hexadecimal digits, digit `n` at place `n`. -/
def hexDigits : List Char := ['0', '1', '2', '3', '4', '5', '6', '7', '8', '9', 'A', 'B', 'C', 'D', 'E', 'F']

/-- A byte as `0x` and two hexadecimal digits, as in every example of R52. -/
def byteText (b : BitVec 8) : List Char :=
  ['0', 'x', hexDigits.getD (b.toNat / 16) '0', hexDigits.getD (b.toNat % 16) '0']

/-- The three bytes of a frame, byte0 first (R52). -/
def frameText (f : Frame) : List Char :=
  byteText (frameByte f 0) ++ [',', ' '] ++ byteText (frameByte f 1) ++ [',', ' '] ++ byteText (frameByte f 2)

/-- The line of a command, in R52's syntax; its spaces and digits are the model's choice (DESIGN CHOICE,
notes/assumptions/8.md). -/
def lineText : Instr → List Char
  | .buildTable => mnemonicText .BUILD_TABLE
  | .verifyTable f => mnemonicText .VERIFY_TABLE ++ [' '] ++ frameText f
  | .verifyDirect f => mnemonicText .VERIFY_DIRECT ++ [' '] ++ frameText f
  | .readTable idx => mnemonicText .READ_TABLE ++ [' '] ++ byteText idx

/-- The tokens of a line, `tok` being the token read so far: a token ends at a blank, a comma is a token of its own, and
the comment after `;` is dropped. -/
def tokensFrom : List Char → List Char → List (List Char)
  | tok, [] => if tok.isEmpty then [] else [tok]
  | tok, c :: cs =>
    if c = ';' then (if tok.isEmpty then [] else [tok])
    else if c = ' ' then (if tok.isEmpty then tokensFrom [] cs else tok :: tokensFrom [] cs)
    else if c = ',' then (if tok.isEmpty then [','] :: tokensFrom [] cs else tok :: [','] :: tokensFrom [] cs)
    else tokensFrom (tok ++ [c]) cs

/-- The value of a hexadecimal digit. -/
def readDigit (c : Char) : Option Nat := hexDigits.findIdx? (· == c)

/-- The byte a token stands for: `0x` and one or two hexadecimal digits. -/
def readByte : List Char → Option (BitVec 8)
  | ['0', 'x', lo] => (readDigit lo).map (BitVec.ofNat 8 ·)
  | ['0', 'x', hi, lo] => (readDigit hi).bind fun h => (readDigit lo).map fun l => BitVec.ofNat 8 (16 * h + l)
  | _ => none

/-- The frame of three bytes, byte0 the most significant (20_memory.md rule R32). -/
def frameOf (b0 b1 b2 : BitVec 8) : Frame := b0 ++ b1 ++ b2

/-- The frame that five tokens stand for: three bytes with a comma between them. -/
def readFrame (t0 c0 t1 c1 t2 : List Char) : Option Frame :=
  if c0 = [','] ∧ c1 = [','] then
    (readByte t0).bind fun b0 => (readByte t1).bind fun b1 => (readByte t2).map fun b2 => frameOf b0 b1 b2
  else none

/-- The command that a line's tokens stand for, if they are one (R52). -/
def readTokens : List (List Char) → Option Instr
  | [m] => if m = mnemonicText .BUILD_TABLE then some .buildTable else none
  | [m, t] => if m = mnemonicText .READ_TABLE then (readByte t).map .readTable else none
  | [m, t0, c0, t1, c1, t2] =>
    if m = mnemonicText .VERIFY_TABLE then (readFrame t0 c0 t1 c1 t2).map .verifyTable
    else if m = mnemonicText .VERIFY_DIRECT then (readFrame t0 c0 t1 c1 t2).map .verifyDirect
    else none
  | _ => none

/-- The command a line stands for (R52); none where the line holds no well-formed command. -/
def readLine (line : List Char) : Option Instr := readTokens (tokensFrom [] line)

/-- The command words of a program: its lines in order, those that hold only blanks or a comment left out (R52); none
where another line is no command. -/
def assemble : List (List Char) → Option (List Command)
  | [] => some []
  | line :: rest =>
    if tokensFrom [] line = [] then assemble rest
    else (readLine line).bind fun i => (assemble rest).map fun ws => encode i :: ws

end Sys2Proof.Machine
end

