-- ==== Sys2Proof/Machine/Lfsr.lean ====
section
/-! DEFINITION. The single-bit register step of which both verifiers are unrollings (43_equivalence_properties.md rules
R99, R100) and the syndrome of an error pattern (R102). They are no unit of the block and no command runs them: the
spec states its properties with them. -/

namespace Sys2Proof.Machine

/-- `Ser(r, bit)` (R99): `POLY[5:0]` = 0x27 is added on feedback. -/
def ser (r : Entry) (bit : Bool) : Entry :=
  if r[5] ^^ bit then (r <<< 1) ^^^ Config.POLY.setWidth 6 else r <<< 1

/-- `SerN(r, v, n)` (R99): the `n` bits of `v` are shifted into `r`, the most significant first. -/
def serN (r : Entry) {m : Nat} (v : BitVec m) : Nat → Entry
  | 0 => r
  | n + 1 => serN (ser r (v.getLsbD n)) v n

/-- `Syn(E)`: the table path started from register 0 (R102). -/
def syn (e : Frame) : Entry := crcTableFrom 0#6 e

end Sys2Proof.Machine
end

