-- ==== Sys2Proof/Safety.lean ====
section
/-! DEFINITION. What counts as a good state and a good run: the invariant of the persistent state (10_state.md rule R14),
the response words that can occur (30_encoding.md rule R49), and the tables the statements speak of. -/

namespace Sys2Proof.Machine

/-- The whole table that BUILD_TABLE leaves, in canonical form: `TableEntry(i)` at every index (40_table_builder.md
rules R63, R65). -/
def builtTable : Table :=
  (List.range Config.TABLE_ENTRIES).map fun i => (i, tableEntry (BitVec.ofNat 8 i))

/-- Every index holds `TableEntry` of it (R14). -/
def Table.holdsEntries (t : Table) : Prop := ∀ i : Index, Table.get t i.toNat = some (tableEntry i)

/-- No index holds a value (R14). -/
def Table.holdsNothing (t : Table) : Prop := ∀ i : Index, Table.get t i.toNat = none

/-- The invariant of R14: either TABLE_BUILT = 0 and no entry holds a value, or TABLE_BUILT = 1 and every entry holds
`TableEntry` of its index. -/
def State.Inv (s : State) : Prop :=
  (s.TABLE_BUILT = false ∧ s.TABLE.holdsNothing) ∨ (s.TABLE_BUILT = true ∧ s.TABLE.holdsEntries)

/-- The table is held in its canonical form (the model's own, notes/assumptions/1.md). -/
def State.Canonical (s : State) : Prop := s.TABLE.wf = true

/-- The 66 response words that can occur (section 4 of 30_encoding.md, after R49; 90_conflicts.md C8). -/
def responseWordOccurs (w : ResponseWord) : Bool := decide (w.toNat < 0x40) || w == 0x100#10 || w == 0x200#10

/-- Only those words have been returned so far. -/
def State.ResponsesLegal (s : State) : Prop := ∀ w ∈ s.responses, responseWordOccurs w = true

/-- Two states with the same persistent state, whatever the host has issued and received (10_state.md rule R21). -/
def State.SamePersistent (s t : State) : Prop := s.TABLE_BUILT = t.TABLE_BUILT ∧ s.TABLE = t.TABLE

/-- A frame is valid for the table path: its residual is zero (43_equivalence_properties.md rule R97). -/
def validFrame (f : Frame) : Prop := crcTable f = 0#6

/-- A frame with bit `k` flipped: `F xor (1 << k)` (43_equivalence_properties.md rule R101). -/
def flipBit (f : Frame) (k : Nat) : Frame := f ^^^ (1#24 <<< k)

/-! ## What the statements speak of -/

/-- The 256 values that 40_table_builder.md rule R65 lists. The model does not read them. -/
def listedTable : List Nat :=
  [0x00, 0x27, 0x29, 0x0E, 0x35, 0x12, 0x1C, 0x3B, 0x0D, 0x2A, 0x24, 0x03, 0x38, 0x1F, 0x11, 0x36]
    ++ [0x1A, 0x3D, 0x33, 0x14, 0x2F, 0x08, 0x06, 0x21, 0x17, 0x30, 0x3E, 0x19, 0x22, 0x05, 0x0B, 0x2C]
    ++ [0x34, 0x13, 0x1D, 0x3A, 0x01, 0x26, 0x28, 0x0F, 0x39, 0x1E, 0x10, 0x37, 0x0C, 0x2B, 0x25, 0x02]
    ++ [0x2E, 0x09, 0x07, 0x20, 0x1B, 0x3C, 0x32, 0x15, 0x23, 0x04, 0x0A, 0x2D, 0x16, 0x31, 0x3F, 0x18]
    ++ [0x0F, 0x28, 0x26, 0x01, 0x3A, 0x1D, 0x13, 0x34, 0x02, 0x25, 0x2B, 0x0C, 0x37, 0x10, 0x1E, 0x39]
    ++ [0x15, 0x32, 0x3C, 0x1B, 0x20, 0x07, 0x09, 0x2E, 0x18, 0x3F, 0x31, 0x16, 0x2D, 0x0A, 0x04, 0x23]
    ++ [0x3B, 0x1C, 0x12, 0x35, 0x0E, 0x29, 0x27, 0x00, 0x36, 0x11, 0x1F, 0x38, 0x03, 0x24, 0x2A, 0x0D]
    ++ [0x21, 0x06, 0x08, 0x2F, 0x14, 0x33, 0x3D, 0x1A, 0x2C, 0x0B, 0x05, 0x22, 0x19, 0x3E, 0x30, 0x17]
    ++ [0x1E, 0x39, 0x37, 0x10, 0x2B, 0x0C, 0x02, 0x25, 0x13, 0x34, 0x3A, 0x1D, 0x26, 0x01, 0x0F, 0x28]
    ++ [0x04, 0x23, 0x2D, 0x0A, 0x31, 0x16, 0x18, 0x3F, 0x09, 0x2E, 0x20, 0x07, 0x3C, 0x1B, 0x15, 0x32]
    ++ [0x2A, 0x0D, 0x03, 0x24, 0x1F, 0x38, 0x36, 0x11, 0x27, 0x00, 0x0E, 0x29, 0x12, 0x35, 0x3B, 0x1C]
    ++ [0x30, 0x17, 0x19, 0x3E, 0x05, 0x22, 0x2C, 0x0B, 0x3D, 0x1A, 0x14, 0x33, 0x08, 0x2F, 0x21, 0x06]
    ++ [0x11, 0x36, 0x38, 0x1F, 0x24, 0x03, 0x0D, 0x2A, 0x1C, 0x3B, 0x35, 0x12, 0x29, 0x0E, 0x00, 0x27]
    ++ [0x0B, 0x2C, 0x22, 0x05, 0x3E, 0x19, 0x17, 0x30, 0x06, 0x21, 0x2F, 0x08, 0x33, 0x14, 0x1A, 0x3D]
    ++ [0x25, 0x02, 0x0C, 0x2B, 0x10, 0x37, 0x39, 0x1E, 0x28, 0x0F, 0x01, 0x26, 0x1D, 0x3A, 0x34, 0x13]
    ++ [0x3F, 0x18, 0x16, 0x31, 0x0A, 0x2D, 0x23, 0x04, 0x32, 0x15, 0x1B, 0x3C, 0x07, 0x20, 0x2E, 0x09]

/-- The table index and the register after each of the three folds (41_table_verifier.md rules R70 to R72). -/
def foldTrace (f : Frame) : List (Index × Entry) :=
  let i0 := foldIndex Config.SEED (frameByte f 0)
  let i1 := foldIndex (tableEntry i0) (frameByte f 1)
  let i2 := foldIndex (tableEntry i1) (frameByte f 2)
  [(i0, tableEntry i0), (i1, tableEntry i1), (i2, tableEntry i2)]

/-- `Num` and `c[6]` after each of the four steps (42_bit_serial_verifier.md rule R85). -/
def serialTrace (f : Frame) : List (Entry × Bool) :=
  [1, 2, 3, 4].map fun n => (num (serialState f n), (serialState f n)[6])

/-- The 24 changes of residual that 43_equivalence_properties.md rule R102 lists: flipping frame bit `k` adds the one
at place `k`. -/
def listedSyndromes : List Nat :=
  [0x27, 0x29, 0x35, 0x0D, 0x1A, 0x34, 0x0F, 0x1E, 0x3C, 0x1F, 0x3E, 0x1B, 0x36, 0x0B, 0x16, 0x2C,
   0x3F, 0x19, 0x32, 0x03, 0x06, 0x0C, 0x18, 0x30]

/-- The division step of R60 with POLY in a working register of `n` bits (40_table_builder.md rule R62). -/
def divStepIn (n : Nat) (w : BitVec n) : BitVec n :=
  if w.getLsbD 7 then (w <<< 1) ^^^ BitVec.ofNat n 0x019C else w <<< 1

/-- A verification: VERIFY_TABLE or VERIFY_DIRECT. -/
def isVerification : Instr → Bool
  | .buildTable => false
  | .verifyTable _ => true
  | .verifyDirect _ => true
  | .readTable _ => false

/-- The response word of a verification whose residual is `r`: 0x001 when valid, 0x000 when invalid
(30_encoding.md rule R49). -/
def verdictWord (r : Entry) : ResponseWord := if r = 0#6 then 0x001#10 else 0x000#10

/-- `s` after one more response word, and nothing else changed. -/
def State.answered (s : State) (w : ResponseWord) : State := { s with responses := s.responses ++ [w] }

end Sys2Proof.Machine
end

