-- ==== Sys2Proof/Certificates/Slice0/Obligations.lean ====
section
/-! DEFINITION. The statements for the provers. Where one speaks of `pending` and `responses`, these two lists are the
model's form of the command port (DESIGN CHOICE, notes/assumptions/3.md). -/

open Sys2Proof Sys2Proof.Machine

/-! ## Encoding -/

/-- Every command is carried by its word without loss: the word of `i` selects a row of the opcode table and decodes to
`i`, with every operand at every value (R46, R47, R48, R50). -/
def Obligations.DecodeOfEncodeIsTheCommand : Prop :=
  ∀ i : Instr, i.wellFormed = true → wordWellFormed (encode i) = true ∧ decode (encode i) = .ok i

/-- A word that decodes to a command is the command's own word: no two words stand for one command (92_eei_decisions.md
D4: no aliases). -/
def Obligations.EncodeOfDecodeIsTheWord : Prop :=
  ∀ (w : Command) (i : Instr), decode w = .ok i → encode i = w

/-- R48: the mask and match of each row select exactly the words that decode to its command, with the operand at its
place, and no word matches two rows. -/
def Obligations.OpcodeRowsSelectTheirCommands : Prop :=
  ∀ w : Command,
    (decode w = .ok .buildTable ↔ w &&& 0xFFFFFFFF#32 = 0x01000000#32) ∧
    (∀ f, decode w = .ok (.verifyTable f) ↔ w &&& 0xFF000000#32 = 0x02000000#32 ∧ f = w.extractLsb' 0 24) ∧
    (∀ f, decode w = .ok (.verifyDirect f) ↔ w &&& 0xFF000000#32 = 0x03000000#32 ∧ f = w.extractLsb' 0 24) ∧
    (∀ i, decode w = .ok (.readTable i) ↔ w &&& 0xFFFFFF00#32 = 0x04000000#32 ∧ i = w.extractLsb' 0 8) ∧
    (rowsOf w).length ≤ 1 ∧ (wordWellFormed w = true ↔ ∃ i, decode w = .ok i)

/-- R50: the outcome of decoding, by the numbers `op` = CMD[31:24] and `arg` = CMD[23:0]; and a word that decodes to
ILLEGAL raises IllegalCommand. -/
def Obligations.DecodeFollowsOpAndArg : Prop :=
  ∀ w : Command,
    let op := w.toNat / 2 ^ 24
    let arg := w.toNat % 2 ^ 24
    (op = 0x01 ∧ arg = 0 → decode w = .ok .buildTable) ∧
    (op = 0x02 → decode w = .ok (.verifyTable (BitVec.ofNat 24 arg))) ∧
    (op = 0x03 → decode w = .ok (.verifyDirect (BitVec.ofNat 24 arg))) ∧
    (op = 0x04 ∧ arg / 2 ^ 8 = 0 → decode w = .ok (.readTable (BitVec.ofNat 8 arg))) ∧
    (¬(op = 0x01 ∧ arg = 0) ∧ op ≠ 0x02 ∧ op ≠ 0x03 ∧ ¬(op = 0x04 ∧ arg / 2 ^ 8 = 0) →
      (∃ e, decode w = .error e) ∧ ∀ s, runCommand w s = .next (s.answered 0x100#10))

/-- The words of R51 and their response by R112: a word is illegal exactly when it is of one of the four classes, and it
then answers 0x100 and changes nothing else. The spec has the one outcome ILLEGAL; the four named classes are the model's
choice (DESIGN CHOICE, notes/assumptions/7.md). -/
def Obligations.IllegalWordsAnswerIllegalCommand : Prop :=
  ∀ w : Command,
    let op := w.toNat / 2 ^ 24
    let arg := w.toNat % 2 ^ 24
    (decode w = .error .opZero ↔ op = 0x00) ∧
    (decode w = .error .opUnused ↔ 0x05 ≤ op) ∧
    (decode w = .error .buildOperandNotZero ↔ op = 0x01 ∧ arg ≠ 0) ∧
    (decode w = .error .readUpperNotZero ↔ op = 0x04 ∧ arg / 2 ^ 8 ≠ 0) ∧
    ((∃ e, decode w = .error e) → ∀ s, runCommand w s = .next (s.answered 0x100#10))

/-- R46: the frame of a verification is `CMD[23:0]`, bit for bit, with its bytes where the rule puts them; every value is
legal. -/
def Obligations.FrameOperandIsTheLowBits : Prop :=
  ∀ w : Command, (w.toNat / 2 ^ 24 = 0x02 ∨ w.toNat / 2 ^ 24 = 0x03) →
    ∃ f : Frame, (decode w = .ok (.verifyTable f) ∨ decode w = .ok (.verifyDirect f)) ∧
      (∀ n, n < 24 → f.getLsbD n = w.getLsbD n) ∧
      frameByte f 0 = w.extractLsb' 16 8 ∧ frameByte f 1 = w.extractLsb' 8 8 ∧ frameByte f 2 = w.extractLsb' 0 8

/-- The encodings that R52 gives as sums. -/
def Obligations.CommandWordsAreSums : Prop :=
  ∀ b0 b1 b2 : BitVec 8,
    (encode (.verifyTable (b0 ++ b1 ++ b2))).toNat =
      0x02000000 + b0.toNat * 65536 + b1.toNat * 256 + b2.toNat ∧
    (encode (.verifyDirect (b0 ++ b1 ++ b2))).toNat =
      0x03000000 + b0.toNat * 65536 + b1.toNat * 256 + b2.toNat ∧
    (encode (.readTable b0)).toNat = 0x04000000 + b0.toNat ∧ (encode .buildTable).toNat = 0x01000000

/-- A few words of the spec, one of each command, decode to what they stand for (R52; 95_test_vectors.md section 8). That
the last two words are illegal is the spec's; the class names they are given are the model's choice (DESIGN CHOICE,
notes/assumptions/7.md). -/
def Obligations.SpecWordsDecode : Prop :=
  decode 0x01000000#32 = .ok .buildTable ∧
  decode 0x02FD42D9#32 = .ok (.verifyTable 0xFD42D9#24) ∧
  decode 0x03FD42D9#32 = .ok (.verifyDirect 0xFD42D9#24) ∧
  decode 0x04000069#32 = .ok (.readTable 0x69#8) ∧
  decode 0x04000100#32 = .error .readUpperNotZero ∧
  decode 0x01000067#32 = .error .buildOperandNotZero

/-- The line the model writes for a command is read back as that command and assembles to its word. R52 gives the syntax
and its examples; the exact line written (its spaces, digits and capitals) and what the reader takes where R52 leaves it
open are the model's choice (DESIGN CHOICE, notes/assumptions/8.md). -/
def Obligations.AssemblerLineReadsBack : Prop :=
  ∀ i : Instr, readLine (lineText i) = some i ∧ assemble [lineText i] = some [encode i]

/-! ## The table memory -/

/-- R33: a table read raises TableNotBuilt when TABLE_BUILT = 0; else it returns what the entry holds, and it always finds
a value; it changes nothing, so that the next read of the entry returns the same. -/
def Obligations.MemReadFaultsOrFindsTheValue : Prop :=
  ∀ (s : State) (i : Index), s.Inv →
    (s.TABLE_BUILT = false → memRead i s = .error (.raised .tableNotBuilt)) ∧
    (s.TABLE_BUILT = true → ∃ v, Table.get s.TABLE i.toNat = some v ∧ memRead i s = .ok v) ∧
    (∃ t, exec (.readTable i) s = .next t ∧ t.TABLE = s.TABLE ∧ t.TABLE_BUILT = s.TABLE_BUILT ∧
      memRead i t = memRead i s)

/-- The effect R34 gives a table write: index `i` then holds `v`, every other index reads as before, and no other part of
the state changes. That the canonical form is kept is about the model's own form of the table (DESIGN CHOICE,
notes/assumptions/1.md). -/
def Obligations.MemWriteSetsOneEntry : Prop :=
  ∀ (s : State) (i : Index) (v : Entry),
    Table.get (memWrite i v s).TABLE i.toNat = some v ∧
    (∀ j : Nat, j ≠ i.toNat → Table.get (memWrite i v s).TABLE j = Table.get s.TABLE j) ∧
    (s.TABLE.wf = true → (memWrite i v s).TABLE.wf = true) ∧
    (memWrite i v s).TABLE_BUILT = s.TABLE_BUILT ∧ (memWrite i v s).pending = s.pending ∧
    (memWrite i v s).responses = s.responses

/-- R134: once built, the table is never modified by a command: only BUILD_TABLE writes it, and it writes only what the
entries already hold, so that every index reads as before. -/
def Obligations.BuiltTableIsNeverModified : Prop :=
  (∀ (i : Instr) (s t : State), i ≠ .buildTable → exec i s = .next t → t.TABLE = s.TABLE) ∧
  (∀ s t : State, s.Inv → s.TABLE_BUILT = true → exec .buildTable s = .next t →
    ∀ j : Nat, Table.get t.TABLE j = Table.get s.TABLE j) ∧
  (∀ (s t : State) (w : Command), s.Inv → s.TABLE_BUILT = true → runCommand w s = .next t →
    ∀ j : Nat, Table.get t.TABLE j = Table.get s.TABLE j)

/-! ## The Polynomial Table Builder -/

/-- R60: the division step, in numbers; the tested bit is bit 7, and with POLY the value added is 0x019C. -/
def Obligations.DivStepShiftsThenXors : Prop :=
  (∀ (w : BitVec 16) (p : BitVec 7), (divStep w p).toNat =
    if w.toNat / 2 ^ 7 % 2 = 1 then ((2 * w.toNat) ^^^ (4 * p.toNat)) % 2 ^ 16 else (2 * w.toNat) % 2 ^ 16) ∧
  4 * Config.POLY.toNat = 0x019C

/-- R61: the entry of an index is bits [7:2] of the working value that eight division steps with POLY make of
`zext_16(i)`. -/
def Obligations.TableEntryIsEightDivSteps : Prop :=
  ∀ i : Index, (tableEntry i).toNat =
    ((fun w => divStep w 0x67#7)^[8] (BitVec.ofNat 16 i.toNat)).toNat / 2 ^ 2 % 2 ^ 6

/-- R62: the working value stays in 0x0000..0x00FF, no shift loses a set bit, the two low bits are zero at the end, and a
working register of 9 bits or more gives the same table. -/
def Obligations.WorkingValueStaysInItsLane : Prop :=
  (∀ w : BitVec 16, w.toNat ≤ 0x00FF → (divStep w Config.POLY).toNat ≤ 0x00FF ∧
    (2 * w.toNat) ^^^ (if w[7] then 0x019C else 0) = (divStep w Config.POLY).toNat) ∧
  (∀ (i : Index) (n : Nat), n ≤ 8 → (workingValue i n).toNat ≤ 0x00FF) ∧
  (∀ i : Index, (workingValue i 8).toNat % 4 = 0) ∧
  (∀ (n : Nat) (i : Index), 9 ≤ n → ((divStepIn n)^[8] (i.setWidth n) >>> 2).setWidth 6 = tableEntry i)

/-- R63: BUILD_TABLE runs to DONE in every state, writes `TableEntry(i)` at every index and sets TABLE_BUILT; nothing
outside the index space, nothing of the port but the response changes; a built table reads after it as before; and the
worked example and the early zeros. -/
def Obligations.BuildTableWritesEveryEntry : Prop :=
  (∀ s : State, ∃ t : State, exec .buildTable s = .next t ∧ t.TABLE_BUILT = true ∧
    (∀ i : Index, Table.get t.TABLE i.toNat = some (tableEntry i)) ∧
    (∀ j : Nat, 256 ≤ j → Table.get t.TABLE j = Table.get s.TABLE j) ∧
    t.pending = s.pending ∧ t.responses = s.responses ++ [0x000#10]) ∧
  (∀ s : State, s.Inv → s.TABLE_BUILT = true → ∃ t : State, exec .buildTable s = .next t ∧ t.TABLE_BUILT = true ∧
    ∀ j : Nat, Table.get t.TABLE j = Table.get s.TABLE j) ∧
  (List.range 9).map (fun n => (workingValue 0x01#8 n).toNat) =
    [0x0001, 0x0002, 0x0004, 0x0008, 0x0010, 0x0020, 0x0040, 0x0080, 0x009C] ∧
  (tableEntry 0x01#8).toNat = 0x27 ∧
  (∀ n, n ≤ 8 → workingValue 0x00#8 n = 0#16) ∧
  (workingValue 0x67#8 1).toNat = 0x00CE ∧ (workingValue 0x67#8 2).toNat = 0x0000 ∧
  tableEntry 0x00#8 = 0#6 ∧ tableEntry 0x67#8 = 0#6 ∧ tableEntry 0xCE#8 = 0#6 ∧ tableEntry 0xA9#8 = 0#6

/-- R64: READ_TABLE answers the entry zero-extended, in every state of the invariant with the table built, and
TableNotBuilt when it is not; it writes no state. -/
def Obligations.ReadTableAnswersTheEntry : Prop :=
  (∀ (s : State) (i : Index), s.TABLE_BUILT = false → exec (.readTable i) s = .next (s.answered 0x200#10)) ∧
  (∀ (s : State) (i : Index), s.Inv → s.TABLE_BUILT = true →
    exec (.readTable i) s = .next (s.answered ((tableEntry i).setWidth 10))) ∧
  (tableEntry 0x00#8).toNat = 0x00 ∧ (tableEntry 0xFF#8).toNat = 0x09 ∧ (tableEntry 0x69#8).toNat = 0x11

/-- R65: the 256 listed values, and what the rule says of them. -/
def Obligations.TableIsTheListedTable : Prop :=
  (∀ i : Index, listedTable[i.toNat]? = some (tableEntry i).toNat) ∧
  listedTable.length = 256 ∧
  (∀ v : Entry, (List.range 256).countP (fun i => tableEntry (BitVec.ofNat 8 i) == v) = 4) ∧
  (∀ i : Index, tableEntry i = 0#6 ↔ i = 0x00#8 ∨ i = 0x67#8 ∨ i = 0xA9#8 ∨ i = 0xCE#8) ∧
  (∀ a b : Index, tableEntry (a ^^^ b) = tableEntry a ^^^ tableEntry b) ∧
  [0x01#8, 0x02#8, 0x04#8, 0x08#8, 0x10#8, 0x20#8, 0x40#8, 0x80#8].map (fun i => (tableEntry i).toNat) =
    [0x27, 0x29, 0x35, 0x0D, 0x1A, 0x34, 0x0F, 0x1E]

/-- R66: an entry is the register reached after the eight bits of a byte have been shifted in. -/
def Obligations.EntryIsEightSingleBitSteps : Prop :=
  ∀ (r : Entry) (b : BitVec 8), tableEntry ((r ++ 0#2) ^^^ b) = serN r b 8

/-- R98: READ_TABLE answers the same data after the first BUILD_TABLE, after a second one, and after a reset followed by
BUILD_TABLE: the entry zero-extended. -/
def Obligations.RebuiltTableReadsTheSame : Prop :=
  ∀ (s : State) (i : Index), s.Inv →
    ∃ t₁ t₂ t₃ : State,
      exec .buildTable s = .next t₁ ∧ exec (.readTable i) t₁ = .next (t₁.answered ((tableEntry i).setWidth 10)) ∧
      exec .buildTable t₁ = .next t₂ ∧ exec (.readTable i) t₂ = .next (t₂.answered ((tableEntry i).setWidth 10)) ∧
      exec .buildTable (resetBlock t₂) = .next t₃ ∧
      exec (.readTable i) t₃ = .next (t₃.answered ((tableEntry i).setWidth 10))

/-! ## The Table-Driven Verifier -/

/-- R70: the table index, in numbers and as a concatenation. -/
def Obligations.FoldIndexShiftsThenXors : Prop :=
  ∀ (r : Entry) (b : BitVec 8),
    (foldIndex r b).toNat = ((4 * r.toNat) ^^^ b.toNat) % 2 ^ 8 ∧ 4 * r.toNat ≤ 0xFC ∧
    foldIndex r b = (r ++ 0#2) ^^^ b ∧
    (foldIndex r b).extractLsb' 2 6 = r ^^^ b.extractLsb' 2 6 ∧
    (foldIndex r b).extractLsb' 0 2 = b.extractLsb' 0 2

/-- R71: one fold forms the index and reads the table there; on a built table the register becomes `TableEntry` of the
index. -/
def Obligations.FoldReadsTheIndexedEntry : Prop :=
  ∀ (s : State) (g : Config.FoldRegs) (k : Nat), k < 3 →
    (∀ v, memRead (foldIndex g.R (frameByte g.F (BitVec.ofNat 2 k))) s = .ok v →
      foldByte s g k = .ok ⟨v, foldIndex g.R (frameByte g.F (BitVec.ofNat 2 k)), BitVec.ofNat 2 k, g.F⟩) ∧
    (∀ e, memRead (foldIndex g.R (frameByte g.F (BitVec.ofNat 2 k))) s = .error e → foldByte s g k = .error e) ∧
    (s.Inv → s.TABLE_BUILT = true →
      foldByte s g k =
        .ok ⟨tableEntry (foldIndex g.R (frameByte g.F (BitVec.ofNat 2 k))),
          foldIndex g.R (frameByte g.F (BitVec.ofNat 2 k)), BitVec.ofNat 2 k, g.F⟩)

/-- R72: the residual of the table path, byte0 first from SEED; the first index is 0x94 xor byte0; and the unit's run over
its registers computes it on a built table, whatever they held. -/
def Obligations.CrcTableFoldsTheBytesFromSeed : Prop :=
  (∀ f : Frame, crcTable f =
    tableEntry (foldIndex (tableEntry (foldIndex (tableEntry (foldIndex 0x25#6 (f.extractLsb' 16 8)))
      (f.extractLsb' 8 8))) (f.extractLsb' 0 8))) ∧
  (∀ b : BitVec 8, foldIndex Config.SEED b = 0x94#8 ^^^ b) ∧
  (∀ (s : State) (g : Config.FoldRegs) (f : Frame), s.Inv → s.TABLE_BUILT = true →
    ∃ g', foldRun g f s = .ok g' ∧ g'.R = crcTable f)

/-- R73: VERIFY_TABLE answers whether the residual is zero, in every state of the invariant with the table built, and
TableNotBuilt when it is not, whatever the table holds; it writes no state; a frame is valid exactly when its last index
is one of the four zero entries; and the rule's three traces. -/
def Obligations.VerifyTableAnswersZeroResidual : Prop :=
  (∀ (s : State) (f : Frame), s.TABLE_BUILT = false → exec (.verifyTable f) s = .next (s.answered 0x200#10)) ∧
  (∀ (s : State) (f : Frame), s.Inv → s.TABLE_BUILT = true →
    exec (.verifyTable f) s = .next (s.answered (if crcTable f = 0#6 then 0x001#10 else 0x000#10))) ∧
  (∀ f : Frame, crcTable f = 0#6 ↔
    foldIndex (fold (fold Config.SEED (frameByte f 0)) (frameByte f 1)) (frameByte f 2) ∈
      [0x00#8, 0x67#8, 0xA9#8, 0xCE#8]) ∧
  foldTrace 0x000000#24 = [(0x94#8, 0x31#6), (0xC4#8, 0x24#6), (0x90#8, 0x04#6)] ∧
  foldTrace 0xFFFFFF#24 = [(0x6B#8, 0x38#6), (0x1F#8, 0x2C#6), (0x4F#8, 0x39#6)] ∧
  foldTrace 0xFD42D9#24 = [(0x69#8, 0x11#6), (0x06#8, 0x1C#6), (0xA9#8, 0x00#6)]

/-! ## The Bit-Serial Verifier -/

/-- R80: the four groups are the frame's bits from the top, and what they are of its bytes. -/
def Obligations.GroupsAreTheFrameFromTheTop : Prop :=
  ∀ f : Frame,
    (∀ (s : BitVec 2) (k : Nat), k < 6 → (group f s).getLsbD k = f.getLsbD (18 - 6 * s.toNat + k)) ∧
    group f 0 ++ group f 1 ++ group f 2 ++ group f 3 = f ∧
    group f 0 = (frameByte f 0).extractLsb' 2 6 ∧
    group f 1 = (frameByte f 0).extractLsb' 0 2 ++ (frameByte f 1).extractLsb' 4 4 ∧
    group f 2 = (frameByte f 1).extractLsb' 0 4 ++ (frameByte f 2).extractLsb' 6 2 ∧
    group f 3 = (frameByte f 2).extractLsb' 0 6

/-- R81: `d[k] = g[5 - k]`; at step `s` of a frame, `d[k]` is frame bit `23 - 6*s - k`. -/
def Obligations.GroupBitsStartAtTheTop : Prop :=
  (∀ (g : BitVec 6) (k : Fin 6), (groupBits g)[k] = g.getLsbD (5 - k)) ∧
  (∀ (f : Frame) (s : BitVec 2) (k : Fin 6), (groupBits (group f s))[k] = f.getLsbD (23 - 6 * s.toNat - k))

/-- R82 and R84: the number a state vector holds, and the initial vector, which holds SEED with the carry slot at 0. -/
def Obligations.InitialVectorHoldsSeed : Prop :=
  (∀ cv : Vector Bool 7, (num cv).toNat = cv[0].toNat + 2 * cv[1].toNat + 4 * cv[2].toNat + 8 * cv[3].toNat +
    16 * cv[4].toNat + 32 * cv[5].toNat) ∧
  (∀ cv dv : Vector Bool 7, (∀ k : Fin 6, cv[k] = dv[k]) → num cv = num dv) ∧
  initC.toList = [true, false, true, false, false, true, false] ∧
  num initC = 0x25#6 ∧ num initC = Config.SEED

/-- R83: the seven equations; `ch[6]` takes part in none; and the number reached depends only on `Num(ch) xor g`. -/
def Obligations.StepSixFollowsTheEquations : Prop :=
  (∀ (ch : Vector Bool 7) (dv : Vector Bool 6),
    (step6 ch dv)[6] = ch[5] ∧
    (step6 ch dv)[5] = (ch[0] ^^ ch[1] ^^ ch[2] ^^ ch[5] ^^ dv[0] ^^ dv[3] ^^ dv[4] ^^ dv[5]) ∧
    (step6 ch dv)[4] = (ch[2] ^^ ch[4] ^^ ch[5] ^^ dv[0] ^^ dv[1] ^^ dv[3]) ∧
    (step6 ch dv)[3] = (ch[1] ^^ ch[3] ^^ ch[4] ^^ dv[1] ^^ dv[2] ^^ dv[4]) ∧
    (step6 ch dv)[2] = (ch[0] ^^ ch[2] ^^ ch[3] ^^ ch[5] ^^ dv[0] ^^ dv[2] ^^ dv[3] ^^ dv[5]) ∧
    (step6 ch dv)[1] = (ch[0] ^^ ch[4] ^^ dv[1] ^^ dv[5]) ∧
    (step6 ch dv)[0] = (ch[0] ^^ ch[1] ^^ ch[2] ^^ ch[3] ^^ dv[2] ^^ dv[3] ^^ dv[4] ^^ dv[5])) ∧
  (∀ (ch ch' : Vector Bool 7) (dv : Vector Bool 6), (∀ k : Fin 6, ch[k] = ch'[k]) → step6 ch dv = step6 ch' dv) ∧
  (∀ (ch ch' : Vector Bool 7) (g g' : BitVec 6), num ch ^^^ g = num ch' ^^^ g' →
    num (step6 ch (groupBits g)) = num (step6 ch' (groupBits g')))

/-- R85: the unit's run over its registers computes the state after the four groups from the initial pattern, whatever
they held. -/
def Obligations.SerialRunComputesCrcDirect : Prop :=
  ∀ (g : Config.SerialRegs) (f : Frame),
    (serialRun g f).C = crcDirect f ∧
    crcDirect f = step6 (step6 (step6 (step6 #v[true, false, true, false, false, true, false]
      (groupBits (f.extractLsb' 18 6))) (groupBits (f.extractLsb' 12 6))) (groupBits (f.extractLsb' 6 6)))
      (groupBits (f.extractLsb' 0 6))

/-- R86: validity is `c[0]` to `c[5]` all false, that is `Num` = 0, whatever `c[6]`; after each step `c[6]` is the `c[5]`
of before; and it ends at 0 for one valid frame and at 1 for another. -/
def Obligations.ValidityIgnoresTheCarrySlot : Prop :=
  (∀ cv : Vector Bool 7, (vectorIsZero cv = true ↔ ∀ k : Fin 6, cv[k] = false) ∧
    (vectorIsZero cv = true ↔ num cv = 0#6)) ∧
  (∀ (f : Frame) (n : Nat), n < 4 → (serialState f (n + 1))[6] = (serialState f n)[5]) ∧
  (num (crcDirect 0xFD42D9#24) = 0#6 ∧ (crcDirect 0xFD42D9#24)[6] = false) ∧
  (num (crcDirect 0xFD86E0#24) = 0#6 ∧ (crcDirect 0xFD86E0#24)[6] = true)

/-- R87: VERIFY_DIRECT answers whether `c[0..5]` is zero, for every frame in every state, built or not, and writes no
state; and the rule's three traces. -/
def Obligations.VerifyDirectAnswersInEveryState : Prop :=
  (∀ (s : State) (f : Frame),
    exec (.verifyDirect f) s = .next (s.answered (if num (crcDirect f) = 0#6 then 0x001#10 else 0x000#10))) ∧
  (serialTrace 0x000000#24).map (·.1) = [0x26#6, 0x28#6, 0x39#6, 0x04#6] ∧
  (serialTrace 0xFFFFFF#24).map (·.1) = [0x3E#6, 0x27#6, 0x17#6, 0x39#6] ∧
  [0#2, 1#2, 2#2, 3#2].map (group 0xFD42D9#24) = [0x3F#6, 0x14#6, 0x0B#6, 0x19#6] ∧
  serialTrace 0xFD42D9#24 = [(0x3E#6, true), (0x10#6, true), (0x19#6, false), (0x00#6, false)]

/-! ## What ties the units together -/

/-- R95: for every frame, with the table built, VERIFY_TABLE and VERIFY_DIRECT respond alike (they leave the very same
state); that is, one residual is zero exactly when the other is. -/
def Obligations.BothVerifiersRespondAlike : Prop :=
  (∀ (s : State) (f : Frame), s.Inv → s.TABLE_BUILT = true →
    ∃ t, exec (.verifyTable f) s = .next t ∧ exec (.verifyDirect f) s = .next t) ∧
  (∀ f : Frame, crcTable f = 0#6 ↔ num (crcDirect f) = 0#6)

/-- R96: the two paths reach the same 6-bit residual. -/
def Obligations.BothPathsReachTheSameResidual : Prop :=
  ∀ f : Frame, num (crcDirect f) = crcTable f

/-- R99: the single-bit register step, and its relation to the division step. -/
def Obligations.DivStepIsTheSingleBitStep : Prop :=
  ∀ (r : Entry) (b : Bool),
    (ser r b).toNat = (if (r[5] ^^ b) then (2 * r.toNat % 64) ^^^ 0x27 else 2 * r.toNat % 64) ∧
    divStep ((0#8 ++ r ++ 0#2) ^^^ ((BitVec.ofBool b).setWidth 16 <<< 7)) Config.POLY = 0#8 ++ ser r b ++ 0#2

/-- R100: both verifiers are unrollings of the single-bit step. -/
def Obligations.BothVerifiersUnrollTheSingleBitStep : Prop :=
  (∀ (r : Entry) (b : BitVec 8), tableEntry (foldIndex r b) = serN r b 8) ∧
  (∀ (ch : Vector Bool 7) (g : BitVec 6), num (step6 ch (groupBits g)) = serN (num ch) g 6) ∧
  (∀ f : Frame, crcTable f = serN Config.SEED f 24 ∧ num (crcDirect f) = serN Config.SEED f 24)

/-- R101: every single-bit error in a valid frame is detected by both verifiers, and every double-bit error; three flipped
bits can escape. -/
def Obligations.SingleBitErrorsAreDetected : Prop :=
  (∀ (f : Frame) (k : Nat), validFrame f → k < 24 →
    ¬ validFrame (flipBit f k) ∧ num (crcDirect (flipBit f k)) ≠ 0#6) ∧
  (∀ (f : Frame) (j k : Nat), validFrame f → j < k → k < 24 →
    ¬ validFrame (flipBit (flipBit f j) k) ∧ num (crcDirect (flipBit (flipBit f j) k)) ≠ 0#6) ∧
  (validFrame 0xFD42D9#24 ∧ flipBit (flipBit (flipBit 0xFD42D9#24 11) 8) 0 = 0xFD4BD8#24 ∧ validFrame 0xFD4BD8#24)

/-- R102: the residual is an affine function of the frame, with the listed change for each frame bit; all 24 are non-zero
and different. -/
def Obligations.ResidualIsAffine : Prop :=
  (∀ f e : Frame, crcTable (f ^^^ e) = crcTable f ^^^ syn e) ∧
  (∀ e₁ e₂ : Frame, syn (e₁ ^^^ e₂) = syn e₁ ^^^ syn e₂) ∧
  crcTable 0x000000#24 = 0x04#6 ∧
  (∀ k : Fin 24, listedSyndromes[k.val]? = some (syn (1#24 <<< k.val)).toNat) ∧
  listedSyndromes.length = 24 ∧ 0 ∉ listedSyndromes ∧ listedSyndromes.Nodup ∧
  (∀ k : Fin 8, syn (1#24 <<< k.val) = tableEntry (1#8 <<< k.val))

/-- R103: a frame is valid exactly when its last group is the register reached over its 18 data bits, that is the number
held after three groups; each value of the data field has exactly one check field; there are exactly 2^18 valid frames,
from 0x000039 to 0xFFFFD7. -/
def Obligations.CheckBitsFollowFromDataBits : Prop :=
  (∀ f : Frame, (validFrame f ↔ f.extractLsb' 0 6 = serN Config.SEED (f.extractLsb' 6 18) 18) ∧
    (validFrame f ↔ group f 3 = num (serialState f 3))) ∧
  (∀ data : BitVec 18, ∃! check : BitVec 6, validFrame (data ++ check)) ∧
  Nat.card { f : Frame // validFrame f } = 2 ^ 18 ∧
  (validFrame 0x000039#24 ∧ validFrame 0xFFFFD7#24 ∧
    ∀ f : Frame, validFrame f → 0x000039 ≤ f.toNat ∧ f.toNat ≤ 0xFFFFD7)

/-! ## Faults and responses -/

/-- R111: a command word answers TableNotBuilt, 0x200, exactly when TABLE_BUILT = 0 and it is VERIFY_TABLE or READ_TABLE; it
then does nothing else, whatever the table holds: the check is made before any entry is read. -/
def Obligations.UseBeforeBuildAnswersTableNotBuilt : Prop :=
  ∀ (s : State) (w : Command),
    (s.TABLE_BUILT = false ∧ ((∃ f, decode w = .ok (.verifyTable f)) ∨ ∃ i, decode w = .ok (.readTable i))) ↔
      runCommand w s = .next (s.answered 0x200#10)

/-- R113: a command whose response is a fault leaves TABLE and TABLE_BUILT as before: it has returned that one response and
done nothing else. -/
def Obligations.FaultsChangeNoPersistentState : Prop :=
  ∀ (s t : State) (w : Command) (r : ResponseWord), runCommand w s = .next t → t.responses = s.responses ++ [r] →
    (r = 0x100#10 ∨ r = 0x200#10) → t.TABLE = s.TABLE ∧ t.TABLE_BUILT = s.TABLE_BUILT ∧ t = s.answered r

/-- R114: a word that is illegal answers IllegalCommand whatever TABLE_BUILT is, a word that is not never does, and so a command
answers at most one fault; the rule's example. -/
def Obligations.IllegalCommandComesFirst : Prop :=
  (∀ (s : State) (w : Command) (e : Illegal), decode w = .error e → runCommand w s = .next (s.answered 0x100#10)) ∧
  (∀ (s t : State) (w : Command) (i : Instr), decode w = .ok i → runCommand w s = .next t →
    t.responses ≠ s.responses ++ [0x100#10]) ∧
  (∀ s : State, runCommand 0x04000100#32 s = .next (s.answered 0x100#10))

/-- R116: after a fault response the block is ready for the next command exactly as before it: any command runs as it would
have; and after TableNotBuilt, BUILD_TABLE and the command again answer it. -/
def Obligations.FaultsAreFollowedByTheNextCommand : Prop :=
  (∀ (s : State) (c : Cause) (i : Instr), s.Inv → ∃ (t t' : State) (r : ResponseWord),
    exec i s = .next t ∧ exec i (takeFault c s) = .next t' ∧ t'.SamePersistent t ∧
    t.responses = s.responses ++ [r] ∧ t'.responses = (takeFault c s).responses ++ [r]) ∧
  (∀ (s : State) (f : Frame), s.TABLE_BUILT = false → ∃ t₁ t₂ : State,
    exec (.verifyTable f) s = .next t₁ ∧ t₁ = s.answered 0x200#10 ∧
    exec .buildTable t₁ = .next t₂ ∧ exec (.verifyTable f) t₂ = .next (t₂.answered (verdictWord (crcTable f))))

/-- R49: every command returns one response word, exactly once; what the word is by command; a fault's data is 0x00; status
3 and any word but the 66 are never returned. -/
def Obligations.EveryCommandReturnsOneWord : Prop :=
  ∀ (s t : State) (w : Command), runCommand w s = .next t →
    ∃ r : ResponseWord, t.responses = s.responses ++ [r] ∧
      responseWordOccurs r = true ∧
      (r.extractLsb' 8 2 = 0#2 ∨ r.extractLsb' 8 2 = 1#2 ∨ r.extractLsb' 8 2 = 2#2) ∧
      (r.extractLsb' 8 2 ≠ 0#2 → r.extractLsb' 0 8 = 0x00#8) ∧
      (decode w = .ok .buildTable → r = 0x000#10) ∧
      (∀ f, (decode w = .ok (.verifyTable f) ∨ decode w = .ok (.verifyDirect f)) →
        r = 0x001#10 ∨ r = 0x000#10 ∨ r = 0x200#10) ∧
      (∀ f, decode w = .ok (.verifyDirect f) → r = verdictWord (num (crcDirect f))) ∧
      (∀ f, decode w = .ok (.verifyTable f) → s.Inv → s.TABLE_BUILT = true → r = verdictWord (crcTable f)) ∧
      (∀ i, decode w = .ok (.readTable i) → s.TABLE_BUILT = true →
        ∃ v : Entry, Table.get s.TABLE i.toNat = some v ∧ r = v.setWidth 10)

/-- Section 1 of 60_exceptions.md (R110) and R49: from every state of the invariant every step completes; the model stops
nowhere: its one fault, for an entry of a built table without a value, is its own (notes/assumptions/5.md). -/
def Obligations.EveryStepCompletes : Prop :=
  (∀ s : State, s.Inv → ∃ t, step s = .next t) ∧ (∀ (s : State) (i : Instr), s.Inv → ∃ t, exec i s = .next t)

/-! ## The state, reset, and whole-machine rules -/

/-- R14: every step, command or reset, keeps the invariant of the persistent state. -/
def Obligations.StepKeepsTheTableInvariant : Prop :=
  ∀ s t : State, s.Inv → step s = .next t → t.Inv

/-- Every step keeps the table in the model's canonical form, in which equal tables are equal data, and returns only
response words that can occur by R49 (the form is the model's own, notes/assumptions/1.md, and so is the list of returned
words, notes/assumptions/3.md). -/
def Obligations.StepKeepsCanonicalFormAndLegalResponses : Prop :=
  ∀ s t : State, step s = .next t → (s.Canonical → t.Canonical) ∧ (s.ResponsesLegal → t.ResponsesLegal)

/-- In the canonical form BUILD_TABLE leaves exactly the built table, and a rebuild leaves the very same data: only the
response is new. The form is the model's own, notes/assumptions/1.md. -/
def Obligations.BuildLeavesTheCanonicalTable : Prop :=
  ∀ s : State, s.Canonical →
    exec .buildTable s =
      .next { s with TABLE_BUILT := true, TABLE := builtTable, responses := s.responses ++ [0x000#10] } ∧
    (s.Inv → s.TABLE_BUILT = true → exec .buildTable s = .next (s.answered 0x000#10))

/-- R14: reset establishes the invariant; so does the reset event, in any state. The model's own two hold at reset too: the
table's canonical form (DESIGN CHOICE, notes/assumptions/1.md), and that the response list, empty at reset (DESIGN CHOICE,
notes/assumptions/3.md), holds only words that can occur by R49. -/
def Obligations.ResetEstablishesTheTableInvariant : Prop :=
  State.reset.Inv ∧ State.reset.Canonical ∧ State.reset.ResponsesLegal ∧ ∀ s : State, (resetBlock s).Inv

/-- R130: what reset leaves, from any state: TABLE_BUILT = 0 and no entry with a value, the persistent state of State.reset;
POLY and SEED stand; the block is ready for its first command. -/
def Obligations.ResetClearsTheTable : Prop :=
  (∀ s : State, (resetBlock s).TABLE_BUILT = false ∧ (∀ i : Nat, Table.get (resetBlock s).TABLE i = none) ∧
    (resetBlock s).SamePersistent State.reset) ∧
  State.reset.TABLE_BUILT = false ∧ (∀ i : Nat, Table.get State.reset.TABLE i = none) ∧
  Config.POLY = 0x67#7 ∧ Config.SEED = 0x25#6 ∧
  ∀ (s : State) (w : Command), ∃ t, runCommand w (resetBlock s) = .next t

/-- R131: reset loses the table: VERIFY_TABLE and READ_TABLE then answer TableNotBuilt; and the rebuilt table reads as the
one from before the reset. -/
def Obligations.ResetLosesTheTable : Prop :=
  ∀ s : State, s.Inv → s.TABLE_BUILT = true →
    (∀ f, exec (.verifyTable f) (resetBlock s) = .next ((resetBlock s).answered 0x200#10)) ∧
    (∀ i, exec (.readTable i) (resetBlock s) = .next ((resetBlock s).answered 0x200#10)) ∧
    ∃ t, exec .buildTable (resetBlock s) = .next t ∧ t.TABLE_BUILT = true ∧
      ∀ i : Index, Table.get t.TABLE i.toNat = Table.get s.TABLE i.toNat

/-- R13: TABLE_BUILT is 0 after reset; BUILD_TABLE sets it when all 256 entries are written, and no other command does; no
command clears it; VERIFY_TABLE and READ_TABLE fault when it is 0, and the host learns its value from their response. -/
def Obligations.TableBuiltIsSetByBuildAndClearedByReset : Prop :=
  State.reset.TABLE_BUILT = false ∧ (∀ s : State, (resetBlock s).TABLE_BUILT = false) ∧
  (∀ s : State, ∃ t, exec .buildTable s = .next t ∧ t.TABLE_BUILT = true ∧ t.TABLE.holdsEntries) ∧
  (∀ (s t : State) (w : Command), runCommand w s = .next t → s.TABLE_BUILT = true → t.TABLE_BUILT = true) ∧
  (∀ (s t : State) (w : Command), runCommand w s = .next t → s.TABLE_BUILT = false → t.TABLE_BUILT = true →
    decode w = .ok .buildTable) ∧
  (∀ (s : State) (i : Instr), s.Inv → ((∃ f, i = .verifyTable f) ∨ ∃ k, i = .readTable k) →
    ∃ r : ResponseWord, exec i s = .next (s.answered r) ∧
      (s.TABLE_BUILT = false ↔ r = 0x200#10) ∧ (s.TABLE_BUILT = true ↔ r.extractLsb' 8 2 = 0#2))

/-- The boot sequence of R132 as a run from State.reset: BUILD_TABLE, then VERIFY_TABLE and READ_TABLE answer; VERIFY_DIRECT
needs nothing before it; a host that omits the build gets TableNotBuilt. How the host's commands wait in the port is the
model's, notes/assumptions/3.md. -/
def Obligations.BuildOnceThenVerify : Prop :=
  ∀ (f : Frame) (i : Index),
    (∃ t, Sys2Proof.core.run 3 { State.reset with pending :=
        [.command (encode .buildTable), .command (encode (.verifyTable f)), .command (encode (.readTable i))] } =
          .next t ∧
      t.responses = [0x000#10, verdictWord (crcTable f), (tableEntry i).setWidth 10]) ∧
    (∃ t, Sys2Proof.core.run 3 { State.reset with pending :=
        [.command (encode (.verifyDirect f)), .command (encode (.verifyTable f)), .command (encode (.readTable i))] } =
          .next t ∧
      t.responses = [verdictWord (num (crcDirect f)), 0x200#10, 0x200#10])

/-- R21: the response of a command, and the persistent state it leaves, are a function of the command word and of the
persistent state; that of VERIFY_DIRECT of the word alone, and that of VERIFY_TABLE with the table built. -/
def Obligations.ResponseDependsOnWordAndPersistentState : Prop :=
  (∀ (s s' t : State) (w : Command), s.SamePersistent s' → runCommand w s = .next t →
    ∃ (t' : State) (r : ResponseWord), runCommand w s' = .next t' ∧ t.SamePersistent t' ∧
      t.responses = s.responses ++ [r] ∧ t'.responses = s'.responses ++ [r]) ∧
  (∀ (s s' : State) (f : Frame), ∃ r : ResponseWord,
    exec (.verifyDirect f) s = .next (s.answered r) ∧ exec (.verifyDirect f) s' = .next (s'.answered r)) ∧
  (∀ (s s' : State) (f : Frame), s.Inv → s'.Inv → s.TABLE_BUILT = true → s'.TABLE_BUILT = true →
    ∃ r : ResponseWord,
      exec (.verifyTable f) s = .next (s.answered r) ∧ exec (.verifyTable f) s' = .next (s'.answered r))

/-- R20: no command depends on what its unit's working registers hold when it starts; each is written before it is
read. That they are locals, given to a run as an argument, is the model's form (notes/assumptions/2.md). -/
def Obligations.WorkingRegistersCarryNothing : Prop :=
  (∀ (g g' : Config.BuilderRegs) (s : State), builderRun g s = builderRun g' s) ∧
  (∀ (g g' : Config.FoldRegs) (f : Frame) (s : State),
    (foldRun g f s).map (·.R) = (foldRun g' f s).map (·.R) ∧ foldRun g f s = foldRun g' f s) ∧
  (∀ (g g' : Config.SerialRegs) (f : Frame), serialRun g f = serialRun g' f)

/-- R135: a verification leaves nothing behind that the next command reads: whatever runs after it answers as it would
have without it, so the order of verifications does not matter. -/
def Obligations.VerificationsLeaveNothingBehind : Prop :=
  (∀ (i j : Instr) (s t : State), s.Inv → isVerification i = true → exec i s = .next t →
    ∃ (u u' : State) (r : ResponseWord), exec j t = .next u ∧ exec j s = .next u' ∧
      u.responses = t.responses ++ [r] ∧ u'.responses = s.responses ++ [r] ∧ u.SamePersistent u') ∧
  (∀ (i j : Instr) (s : State), s.Inv → isVerification i = true → isVerification j = true →
    ∃ (a b : ResponseWord) (t t' : State),
      exec i s = .next t ∧ exec j t = .next (s.answered a |>.answered b) ∧
      exec j s = .next t' ∧ exec i t' = .next (s.answered b |>.answered a))

/-- R74 and R88: no residual and no state vector leaves the block: two invalid frames are answered alike. -/
def Obligations.ResidualIsNeverReturned : Prop :=
  ∀ (s : State) (f f' : Frame), s.Inv → ¬ validFrame f → ¬ validFrame f' →
    exec (.verifyTable f) s = exec (.verifyTable f') s ∧ exec (.verifyDirect f) s = exec (.verifyDirect f') s

/-- The frame of every command: VERIFY_TABLE, VERIFY_DIRECT and READ_TABLE store nothing, so every index reads as before,
TABLE_BUILT stands, and the port changes by one response; BUILD_TABLE stores to indexes 0 to 255 only and changes
TABLE_BUILT, and the port changes by one response. The port's two lists are the model's, notes/assumptions/3.md. -/
def Obligations.CommandsChangeNothingElse : Prop :=
  (∀ (i : Instr) (s t : State), i ≠ .buildTable → exec i s = .next t →
    (∀ j : Nat, Table.get t.TABLE j = Table.get s.TABLE j) ∧ t.TABLE = s.TABLE ∧ t.TABLE_BUILT = s.TABLE_BUILT ∧
    t.pending = s.pending ∧ ∃ r, t.responses = s.responses ++ [r]) ∧
  (∀ s t : State, exec .buildTable s = .next t →
    (∀ j : Nat, 256 ≤ j → Table.get t.TABLE j = Table.get s.TABLE j) ∧
    t.pending = s.pending ∧ ∃ r, t.responses = s.responses ++ [r])

/-- A step takes the host's next event: a word that decodes to `i` runs `exec i` on the state without that event; an
illegal word answers 0x100; a reset clears TABLE_BUILT and TABLE, as R130 says. That a reset returns no response and drops
no waiting event is the model's choice (DESIGN CHOICE, notes/assumptions/4.md), and so is the queue of events (DESIGN
CHOICE, notes/assumptions/3.md). With nothing pending the block is idle and keeps its state (DEDUCED from R120,
notes/assumptions/6.md). -/
def Obligations.StepRunsTheNextEvent : Prop :=
  (∀ (s : State) (w : Command) (rest : List HostEvent) (i : Instr), s.pending = .command w :: rest →
    decode w = .ok i → step s = exec i { s with pending := rest }) ∧
  (∀ (s : State) (w : Command) (rest : List HostEvent) (e : Illegal), s.pending = .command w :: rest →
    decode w = .error e → step s = .next { s with pending := rest, responses := s.responses ++ [0x100#10] }) ∧
  (∀ (s : State) (rest : List HostEvent), s.pending = .reset :: rest →
    step s = .next { s with TABLE_BUILT := false, TABLE := [], pending := rest }) ∧
  (∀ s : State, s.pending = [] → step s = .next s)
end

