-- ==== Sys2Proof/Laws/State.lean ====
section
/-! SUPPORT. One lemma per field of the state per update, so that no later proof unfolds a record update. -/

namespace Sys2Proof.Machine

@[simp] theorem reset_TABLE_BUILT : State.reset.TABLE_BUILT = false := rfl
@[simp] theorem reset_TABLE : State.reset.TABLE = [] := rfl
@[simp] theorem reset_pending : State.reset.pending = [] := rfl
@[simp] theorem reset_responses : State.reset.responses = [] := rfl

@[simp] theorem respond_TABLE_BUILT (r : Response) (s : State) : (respond r s).TABLE_BUILT = s.TABLE_BUILT := rfl
@[simp] theorem respond_TABLE (r : Response) (s : State) : (respond r s).TABLE = s.TABLE := rfl
@[simp] theorem respond_pending (r : Response) (s : State) : (respond r s).pending = s.pending := rfl
@[simp] theorem respond_responses (r : Response) (s : State) :
    (respond r s).responses = s.responses ++ [r.word] := rfl

@[simp] theorem takeFault_TABLE_BUILT (c : Cause) (s : State) : (takeFault c s).TABLE_BUILT = s.TABLE_BUILT := rfl
@[simp] theorem takeFault_TABLE (c : Cause) (s : State) : (takeFault c s).TABLE = s.TABLE := rfl
@[simp] theorem takeFault_pending (c : Cause) (s : State) : (takeFault c s).pending = s.pending := rfl
@[simp] theorem takeFault_responses (c : Cause) (s : State) :
    (takeFault c s).responses = s.responses ++ [(Response.faulted c).word] := rfl

@[simp] theorem memWrite_TABLE_BUILT (i : Index) (v : Entry) (s : State) :
    (memWrite i v s).TABLE_BUILT = s.TABLE_BUILT := rfl
@[simp] theorem memWrite_TABLE (i : Index) (v : Entry) (s : State) :
    (memWrite i v s).TABLE = Table.set s.TABLE i.toNat v := rfl
@[simp] theorem memWrite_pending (i : Index) (v : Entry) (s : State) : (memWrite i v s).pending = s.pending := rfl
@[simp] theorem memWrite_responses (i : Index) (v : Entry) (s : State) :
    (memWrite i v s).responses = s.responses := rfl

@[simp] theorem setBuilt_TABLE_BUILT (s : State) : (setBuilt s).TABLE_BUILT = true := rfl
@[simp] theorem setBuilt_TABLE (s : State) : (setBuilt s).TABLE = s.TABLE := rfl
@[simp] theorem setBuilt_pending (s : State) : (setBuilt s).pending = s.pending := rfl
@[simp] theorem setBuilt_responses (s : State) : (setBuilt s).responses = s.responses := rfl

@[simp] theorem resetBlock_TABLE_BUILT (s : State) : (resetBlock s).TABLE_BUILT = false := rfl
@[simp] theorem resetBlock_TABLE (s : State) : (resetBlock s).TABLE = [] := rfl
@[simp] theorem resetBlock_pending (s : State) : (resetBlock s).pending = s.pending := rfl
@[simp] theorem resetBlock_responses (s : State) : (resetBlock s).responses = s.responses := rfl

@[simp] theorem withFetchWord_TABLE_BUILT (s : State) (n w : Nat) :
    (s.withFetchWord n w).TABLE_BUILT = s.TABLE_BUILT := rfl
@[simp] theorem withFetchWord_TABLE (s : State) (n w : Nat) : (s.withFetchWord n w).TABLE = s.TABLE := rfl
@[simp] theorem withFetchWord_pending (s : State) (n w : Nat) :
    (s.withFetchWord n w).pending = .command ((BitVec.ofNat n w).setWidth 32) :: s.pending := rfl
@[simp] theorem withFetchWord_responses (s : State) (n w : Nat) :
    (s.withFetchWord n w).responses = s.responses := rfl

end Sys2Proof.Machine
end

