-- ==== Sys2Proof/Laws/Table.lean ====
section
/-! SUPPORT. The table memory: a read after a write, what a write leaves alone, and that every operation keeps the
canonical form, in which equal tables are equal lists. -/

namespace Sys2Proof.Machine

@[simp] theorem Table.get_nil (i : Nat) : Table.get [] i = none := rfl

theorem Table.get_set_same (t : Table) (i : Nat) (v : Entry) : Table.get (Table.set t i v) i = some v := by
  induction t with
  | nil => simp [Table.set, Table.get]
  | cons c rest ih =>
    obtain ⟨k, u⟩ := c
    simp only [Table.set]
    split
    · simp [Table.get]
    · split
      · simp [Table.get]
      · rename_i h
        simp [Table.get, Ne.symm h, ih]

theorem Table.get_set_other (t : Table) {i j : Nat} (v : Entry) (h : j ≠ i) :
    Table.get (Table.set t i v) j = Table.get t j := by
  induction t with
  | nil => simp [Table.set, Table.get, Ne.symm h, unlistedEntry]
  | cons c rest ih =>
    obtain ⟨k, u⟩ := c
    simp only [Table.set]
    split
    · simp [Table.get, Ne.symm h]
    · split
      · rename_i hk
        subst hk
        simp [Table.get, Ne.symm h]
      · simp [Table.get, ih]

theorem Table.risesAbove_set {lo i : Nat} {t : Table} (v : Entry) (ht : Table.risesAbove lo t = true) (hi : lo < i) :
    Table.risesAbove lo (Table.set t i v) = true := by
  induction t generalizing lo with
  | nil => simp [Table.set, Table.risesAbove, hi]
  | cons c rest ih =>
    obtain ⟨k, u⟩ := c
    simp only [Table.risesAbove, Bool.and_eq_true, decide_eq_true_eq] at ht
    simp only [Table.set]
    split
    · simp_all [Table.risesAbove]
    · split
      · simp_all [Table.risesAbove]
      · simp only [Table.risesAbove, Bool.and_eq_true, decide_eq_true_eq]
        exact ⟨ht.1, ih ht.2 (by omega)⟩

/-- A write keeps the indexes strictly rising. -/
theorem Table.rises_set (t : Table) (i : Nat) (v : Entry) (h : t.rises = true) : (Table.set t i v).rises = true := by
  cases t with
  | nil => rfl
  | cons c rest =>
    obtain ⟨k, u⟩ := c
    simp only [Table.set]
    split
    · simp_all [Table.rises, Table.risesAbove]
    · split
      · simp_all [Table.rises]
      · exact Table.risesAbove_set v h (by omega)

/-- A write below the bound keeps every index below it. -/
theorem Table.all_lt_set (t : Table) {i : Nat} (v : Entry) (n : Nat) (hi : i < n)
    (h : t.all (fun c => decide (c.1 < n)) = true) : (Table.set t i v).all (fun c => decide (c.1 < n)) = true := by
  induction t with
  | nil => simp [Table.set, hi]
  | cons c rest ih =>
    obtain ⟨k, u⟩ := c
    simp only [List.all_cons, Bool.and_eq_true, decide_eq_true_eq] at h
    simp only [Table.set]
    split
    · simp only [List.all_cons, Bool.and_eq_true, decide_eq_true_eq]
      exact ⟨hi, h⟩
    · split
      · simp only [List.all_cons, Bool.and_eq_true, decide_eq_true_eq]
        exact ⟨hi, h.2⟩
      · simp only [List.all_cons, Bool.and_eq_true, decide_eq_true_eq]
        exact ⟨h.1, ih h.2⟩

theorem Table.wf_nil : Table.wf [] = true := rfl

/-- A write at an index of the space keeps the canonical form. -/
theorem Table.wf_set (t : Table) {i : Nat} (v : Entry) (hi : i < Config.TABLE_ENTRIES) (h : t.wf = true) :
    (Table.set t i v).wf = true := by
  simp only [Table.wf, Bool.and_eq_true] at h ⊢
  exact ⟨Table.rises_set t i v h.1, Table.all_lt_set t v _ hi h.2⟩

/-- `MemWrite` keeps the canonical form. -/
theorem memWrite_wf (i : Index) (v : Entry) (s : State) (h : s.TABLE.wf = true) : (memWrite i v s).TABLE.wf = true :=
  Table.wf_set s.TABLE v i.isLt h

/-- The reset event leaves a table in canonical form. -/
theorem resetBlock_wf (s : State) : (resetBlock s).TABLE.wf = true := rfl

theorem Table.get_eq_none_of_risesAbove {lo i : Nat} {t : Table} (h : Table.risesAbove lo t = true) (hi : i ≤ lo) :
    Table.get t i = none := by
  induction t generalizing lo with
  | nil => rfl
  | cons c rest ih =>
    obtain ⟨k, u⟩ := c
    simp only [Table.risesAbove, Bool.and_eq_true, decide_eq_true_eq] at h
    have hk : k ≠ i := by omega
    simp only [Table.get, if_neg hk]
    exact ih h.2 (by omega)

theorem Table.rises_tail {c : TableCell} {rest : Table} (h : Table.rises (c :: rest) = true) :
    Table.rises rest = true := by
  obtain ⟨k, u⟩ := c
  cases rest with
  | nil => rfl
  | cons d rest =>
    obtain ⟨l, w⟩ := d
    simp only [Table.rises, Table.risesAbove, Bool.and_eq_true] at h ⊢
    exact h.2

/-- Two tables with rising indexes that read alike everywhere are the same list. -/
theorem Table.eq_of_get_eq {t u : Table} (ht : t.rises = true) (hu : u.rises = true)
    (h : ∀ i, Table.get t i = Table.get u i) : t = u := by
  induction t generalizing u with
  | nil =>
    cases u with
    | nil => rfl
    | cons d _ =>
      have := h d.1
      simp [Table.get, unlistedEntry] at this
  | cons c rest ih =>
    obtain ⟨k, v⟩ := c
    cases u with
    | nil =>
      have := h k
      simp [Table.get, unlistedEntry] at this
    | cons d rest' =>
      obtain ⟨l, w⟩ := d
      have hk : k = l := by
        rcases Nat.lt_trichotomy k l with hlt | heq | hgt
        · have := h k
          have hl : l ≠ k := by omega
          simp only [Table.get, if_true, if_neg hl] at this
          rw [Table.get_eq_none_of_risesAbove hu hlt.le] at this
          exact absurd this (by simp)
        · exact heq
        · have := h l
          have hl : k ≠ l := by omega
          simp only [Table.get, if_true, if_neg hl] at this
          rw [Table.get_eq_none_of_risesAbove ht hgt.le] at this
          exact absurd this (by simp)
      subst hk
      have hv : v = w := by simpa [Table.get] using h k
      subst hv
      congr 1
      refine ih (Table.rises_tail ht) (Table.rises_tail hu) fun i => ?_
      by_cases hi : k = i
      · subst hi
        rw [Table.get_eq_none_of_risesAbove ht le_rfl, Table.get_eq_none_of_risesAbove hu le_rfl]
      · simpa [Table.get, hi] using h i

theorem Table.get_eq_none_of_all_lt {t : Table} {n i : Nat} (h : t.all (fun c => decide (c.1 < n)) = true)
    (hi : n ≤ i) : Table.get t i = none := by
  induction t with
  | nil => rfl
  | cons c rest ih =>
    obtain ⟨k, u⟩ := c
    simp only [List.all_cons, Bool.and_eq_true, decide_eq_true_eq] at h
    have hk : k ≠ i := by omega
    simp only [Table.get, if_neg hk]
    exact ih h.2

/-- Outside the index space nothing holds a value. -/
theorem Table.get_eq_none_of_wf {t : Table} {i : Nat} (h : t.wf = true) (hi : Config.TABLE_ENTRIES ≤ i) :
    Table.get t i = none := by
  simp only [Table.wf, Bool.and_eq_true] at h
  exact Table.get_eq_none_of_all_lt h.2 hi

/-- In canonical form, tables that read alike at every index of the space are the same list. -/
theorem Table.ext_of_wf {t u : Table} (ht : t.wf = true) (hu : u.wf = true)
    (h : ∀ i : Index, Table.get t i.toNat = Table.get u i.toNat) : t = u := by
  have ht' := ht
  have hu' := hu
  simp only [Table.wf, Bool.and_eq_true] at ht' hu'
  refine Table.eq_of_get_eq ht'.1 hu'.1 fun i => ?_
  by_cases hi : i < 256
  · simpa [Nat.mod_eq_of_lt hi] using h (BitVec.ofNat 8 i)
  · have hi' : Config.TABLE_ENTRIES ≤ i := by simpa [Config.TABLE_ENTRIES] using hi
    rw [Table.get_eq_none_of_wf ht hi', Table.get_eq_none_of_wf hu hi']

end Sys2Proof.Machine
end

