-- ==== Sys2Proof/Laws/Ops.lean ====
section
/-! SUPPORT. What the shared operations can do, once: reading the table, ending a command. -/

namespace Sys2Proof.Machine

@[simp] theorem requireBuilt_of_built {s : State} (h : s.TABLE_BUILT = true) : requireBuilt s = .ok () := by
  simp [requireBuilt, h]

@[simp] theorem requireBuilt_of_not_built {s : State} (h : s.TABLE_BUILT = false) :
    requireBuilt s = .error (.raised .tableNotBuilt) := by
  simp [requireBuilt, h]

theorem memRead_of_not_built {s : State} (i : Index) (h : s.TABLE_BUILT = false) :
    memRead i s = .error (.raised .tableNotBuilt) := by
  simp [memRead, h]

theorem memRead_of_get {s : State} {i : Index} {v : Entry} (h : s.TABLE_BUILT = true)
    (hv : Table.get s.TABLE i.toNat = some v) : memRead i s = .ok v := by
  simp [memRead, h, hv]

theorem memRead_of_get_none {s : State} {i : Index} (h : s.TABLE_BUILT = true)
    (hv : Table.get s.TABLE i.toNat = none) : memRead i s = .error (.noValue i) := by
  simp [memRead, h, hv]

/-- A table read depends on the persistent state only. -/
theorem memRead_congr {s t : State} (i : Index) (hb : s.TABLE_BUILT = t.TABLE_BUILT) (ht : s.TABLE = t.TABLE) :
    memRead i s = memRead i t := by
  simp only [memRead, requireBuilt, hb, ht]

@[simp] theorem finish_ok (r : Response) (s : State) : finish (.ok r) s = .next (respond r s) := rfl

@[simp] theorem finish_raised (c : Cause) (s : State) : finish (.error (.raised c)) s = .next (takeFault c s) := rfl

@[simp] theorem finish_noValue (i : Index) (s : State) :
    finish (.error (.noValue i)) s = .fault (.entryWithoutValue i) := rfl

/-- A command that ends in a next state has answered exactly one response and changed nothing else. -/
theorem finish_next {r : Except Stop Response} {s t : State} (h : finish r s = .next t) :
    ∃ response, t = respond response s := by
  match r, h with
  | .ok response, h => exact ⟨response, by simpa using h.symm⟩
  | .error (.raised c), h => exact ⟨.faulted c, by simpa [takeFault] using h.symm⟩
  | .error (.noValue _), h => simp at h

/-- No command is refused. -/
theorem finish_not_refused (r : Except Stop Response) (s : State) (e : Refusal) : finish r s ≠ .refused e := by
  match r with
  | .ok _ => simp
  | .error (.raised _) => simp
  | .error (.noValue _) => simp

end Sys2Proof.Machine
end

