-- ==== Sys2Proof/Laws/TableBuilder.lean ====
section
/-! SUPPORT. The Table Builder's registers compute `TableEntry`, and its run leaves `TableEntry` at every index, whatever
the registers held and whatever the table was. -/

namespace Sys2Proof.Machine

/-- `n` divisions from the working value of `i` after `m` steps give that after `m + n`. -/
theorem builderDivide_fold_W (g : Config.BuilderRegs) (i : Index) (m n : Nat) (h : g.W = workingValue i m) :
    ((List.range n).foldl builderDivide g).W = workingValue i (m + n) := by
  induction n with
  | zero => simpa using h
  | succ n ih => simp [List.range_succ, builderDivide, ih, workingValue]

theorem builderDivide_fold_I (g : Config.BuilderRegs) (n : Nat) :
    ((List.range n).foldl builderDivide g).I = g.I := by
  induction n with
  | zero => rfl
  | succ n ih => simp [List.range_succ, builderDivide, ih]

@[simp] theorem builderEntry_I (i : Nat) (g : Config.BuilderRegs) : (builderEntry i g).I = BitVec.ofNat 8 i := by
  simp only [builderEntry, builderDivide_fold_I]

@[simp] theorem builderEntry_entry (i : Nat) (g : Config.BuilderRegs) :
    entryOf (builderEntry i g).W = tableEntry (BitVec.ofNat 8 i) := by
  simp only [builderEntry, tableEntry]
  rw [builderDivide_fold_W _ (BitVec.ofNat 8 i) 0 _ rfl, Nat.zero_add]

/-- The table after the builder has written the entries below `n`. -/
def fillBelow (t : Table) (n : Nat) : Table :=
  (List.range n).foldl (fun t i => Table.set t (BitVec.ofNat 8 i).toNat (tableEntry (BitVec.ofNat 8 i))) t

theorem builderRow_fold (g : Config.BuilderRegs) (s : State) (n : Nat) :
    ((List.range n).foldl builderRow (g, s)).2 = { s with TABLE := fillBelow s.TABLE n } := by
  induction n with
  | zero => rfl
  | succ n ih =>
    rw [List.range_succ, List.foldl_append, List.foldl_cons, List.foldl_nil]
    simp only [builderRow, ih, builderEntry_I, builderEntry_entry, memWrite, fillBelow, List.range_succ,
      List.foldl_append, List.foldl_cons, List.foldl_nil]

theorem fillBelow_succ (t : Table) (n : Nat) :
    fillBelow t (n + 1) = Table.set (fillBelow t n) (BitVec.ofNat 8 n).toNat (tableEntry (BitVec.ofNat 8 n)) := by
  simp only [fillBelow, List.range_succ, List.foldl_append, List.foldl_cons, List.foldl_nil]

theorem fillBelow_wf (t : Table) (n : Nat) (h : t.wf = true) : (fillBelow t n).wf = true := by
  induction n with
  | zero => exact h
  | succ n ih => rw [fillBelow_succ]; exact Table.wf_set _ _ (BitVec.isLt _) ih

theorem fillBelow_get (t : Table) {n : Nat} (hn : n ≤ Config.TABLE_ENTRIES) (i : Index) :
    Table.get (fillBelow t n) i.toNat = if i.toNat < n then some (tableEntry i) else Table.get t i.toNat := by
  induction n with
  | zero => rfl
  | succ n ih =>
    have hn' : n < 256 := by simpa [Config.TABLE_ENTRIES] using hn
    have hmod : (BitVec.ofNat 8 n).toNat = n := by simp [Nat.mod_eq_of_lt hn']
    rw [fillBelow_succ]
    by_cases hi : i.toNat = n
    · have : i = BitVec.ofNat 8 n := BitVec.eq_of_toNat_eq (by rw [hmod, hi])
      subst this
      rw [Table.get_set_same, hmod, if_pos (Nat.lt_succ_self n)]
    · rw [Table.get_set_other _ _ (by rw [hmod]; exact hi), ih (by omega)]
      have : i.toNat < n ↔ i.toNat < n + 1 := by omega
      simp only [this]

/-- What the builder leaves outside the index space is what was there. -/
theorem fillBelow_get_outside (t : Table) (n : Nat) {j : Nat} (hj : Config.TABLE_ENTRIES ≤ j) :
    Table.get (fillBelow t n) j = Table.get t j := by
  induction n with
  | zero => rfl
  | succ n ih =>
    rw [fillBelow_succ, Table.get_set_other _ _ _, ih]
    have : (BitVec.ofNat 8 n).toNat < 256 := BitVec.isLt _
    simp only [Config.TABLE_ENTRIES] at hj
    omega

/-- The table after the builder's whole run. Irreducible, so that no proof unfolds its 256 writes. -/
@[irreducible] def filledTable (t : Table) : Table := fillBelow t Config.TABLE_ENTRIES

/-- What the builder's run does: it fills the table, and nothing else; what its registers held does not matter. -/
theorem builderRun_eq (g : Config.BuilderRegs) (s : State) :
    builderRun g s = { s with TABLE := filledTable s.TABLE } := by
  unfold filledTable
  exact builderRow_fold g s _

theorem filledTable_get (t : Table) (i : Index) : Table.get (filledTable t) i.toNat = some (tableEntry i) := by
  have h := fillBelow_get t (Nat.le_refl Config.TABLE_ENTRIES) i
  rw [if_pos (show i.toNat < Config.TABLE_ENTRIES from i.isLt)] at h
  unfold filledTable
  exact h

theorem filledTable_get_outside (t : Table) {j : Nat} (hj : Config.TABLE_ENTRIES ≤ j) :
    Table.get (filledTable t) j = Table.get t j := by
  unfold filledTable
  exact fillBelow_get_outside t Config.TABLE_ENTRIES hj

theorem filledTable_wf (t : Table) (h : t.wf = true) : (filledTable t).wf = true := by
  unfold filledTable
  exact fillBelow_wf t Config.TABLE_ENTRIES h

/-- After the builder's run every index holds its entry. -/
theorem builderRun_get (g : Config.BuilderRegs) (s : State) (i : Index) :
    Table.get (builderRun g s).TABLE i.toNat = some (tableEntry i) := by
  simpa only [builderRun_eq] using filledTable_get s.TABLE i

end Sys2Proof.Machine
end

