-- ==== Sys2Proof/Laws/TableVerifier.lean ====
section
/-! SUPPORT. The Table-Driven Verifier's registers compute `CrcTable` on a built table, whatever they held. -/

namespace Sys2Proof.Machine

theorem foldRun_of_not_built (g : Config.FoldRegs) (f : Frame) {s : State} (h : s.TABLE_BUILT = false) :
    foldRun g f s = .error (.raised .tableNotBuilt) := by
  simp [foldRun, h, Except.bind]

/-- One byte folded on a built table whose entries are `TableEntry`. -/
theorem foldByte_of_holds (g : Config.FoldRegs) (k : Nat) {s : State} (h : s.TABLE_BUILT = true)
    (ht : ∀ i : Index, Table.get s.TABLE i.toNat = some (tableEntry i)) :
    foldByte s g k =
      .ok { g with
        K := BitVec.ofNat 2 k
        IDX := foldIndex g.R (frameByte g.F (BitVec.ofNat 2 k))
        R := fold g.R (frameByte g.F (BitVec.ofNat 2 k)) } := by
  simp only [foldByte, memRead_of_get h (ht _), Except.map, fold]

/-- The frame bytes the unit folds, in order. -/
theorem range_FRAME_BYTES : List.range Config.FRAME_BYTES = [0, 1, 2] := rfl

/-- The unit's run on a built table ends with `CrcTable` in R, whatever its registers held. -/
theorem foldRun_of_holds (g : Config.FoldRegs) (f : Frame) {s : State} (h : s.TABLE_BUILT = true)
    (ht : ∀ i : Index, Table.get s.TABLE i.toNat = some (tableEntry i)) :
    (foldRun g f s).map (·.R) = .ok (crcTable f) := by
  simp [foldRun, range_FRAME_BYTES, h, Except.bind, Except.map, List.foldlM, foldByte_of_holds _ _ h ht, bind, foldLoad,
    crcTable, crcTableFrom, pure, Except.pure]

/-- The unit's run reads the persistent state only. -/
theorem foldRun_congr (g : Config.FoldRegs) (f : Frame) {s t : State} (hb : s.TABLE_BUILT = t.TABLE_BUILT)
    (ht : s.TABLE = t.TABLE) : foldRun g f s = foldRun g f t := by
  have : foldByte s = foldByte t := by
    funext g k
    simp only [foldByte, memRead_congr _ hb ht]
  simp only [foldRun, this, requireBuilt, hb]

end Sys2Proof.Machine
end

