-- ==== Sys2Proof/Laws/BitSerial.lean ====
section
/-! SUPPORT. The Bit-Serial Verifier's registers compute `CrcDirect`, whatever they held. -/

namespace Sys2Proof.Machine

theorem serialStep_fold (g : Config.SerialRegs) (f : Frame) (n : Nat) :
    ((List.range n).foldl serialStep (serialLoad f g)).C = serialState f n ∧
      ((List.range n).foldl serialStep (serialLoad f g)).F = f := by
  induction n with
  | zero => exact ⟨rfl, rfl⟩
  | succ n ih =>
    rw [List.range_succ, List.foldl_append, List.foldl_cons, List.foldl_nil]
    simp only [serialStep, ih.1, ih.2, serialState, and_self]

/-- The unit's run ends with `CrcDirect` in C, whatever its registers held. -/
@[simp] theorem serialRun_C (g : Config.SerialRegs) (f : Frame) : (serialRun g f).C = crcDirect f :=
  (serialStep_fold g f _).1

end Sys2Proof.Machine
end

