-- ==== Sys2Proof/Laws/Step.lean ====
section
/-! SUPPORT. What a step can do, once. -/

namespace Sys2Proof.Machine

@[simp] theorem step_idle {s : State} (h : s.pending = []) : step s = .next s := by
  simp [step, h]

@[simp] theorem step_reset {s : State} {rest : List HostEvent} (h : s.pending = .reset :: rest) :
    step s = .next (resetBlock { s with pending := rest }) := by
  simp [step, h]

theorem step_command {s : State} {w : Command} {rest : List HostEvent} (h : s.pending = .command w :: rest) :
    step s = runCommand w { s with pending := rest } := by
  simp [step, h]

theorem runCommand_of_decode {w : Command} {i : Instr} (h : decode w = .ok i) (s : State) :
    runCommand w s = exec i s := by
  simp [runCommand, h]

theorem runCommand_of_illegal {w : Command} {e : Illegal} (h : decode w = .error e) (s : State) :
    runCommand w s = .next (takeFault .illegalCommand s) := by
  simp [runCommand, h]

/-- What an instruction that ends in a next state has done: it answered one response; only BUILD_TABLE changed more. -/
theorem exec_next {i : Instr} {s t : State} (h : exec i s = .next t) :
    (∃ response, t = respond response s) ∨
      (i = .buildTable ∧ ∃ g, t = respond .doneBuild (setBuilt (builderRun g s))) := by
  cases i with
  | buildTable => exact .inr ⟨rfl, _, by simpa [exec, execBuildTable] using h.symm⟩
  | verifyTable f => exact .inl (finish_next (by simpa only [exec, execVerifyTable] using h))
  | verifyDirect f => exact .inl (finish_next (by simpa only [exec, execVerifyDirect] using h))
  | readTable idx => exact .inl (finish_next (by simpa only [exec, execReadTable] using h))

/-- The cases of a step that ends in a next state. -/
theorem step_cases {s t : State} (h : step s = .next t) :
    (s.pending = [] ∧ t = s) ∨
      (∃ rest, s.pending = .reset :: rest ∧ t = resetBlock { s with pending := rest }) ∨
      (∃ w rest, s.pending = .command w :: rest ∧
        ((∃ e, decode w = .error e ∧ t = takeFault .illegalCommand { s with pending := rest }) ∨
          ∃ i, decode w = .ok i ∧ exec i { s with pending := rest } = .next t)) := by
  match hp : s.pending with
  | [] =>
    rw [step_idle hp] at h
    exact .inl ⟨rfl, (Host.Outcome.next.inj h).symm⟩
  | .reset :: rest =>
    rw [step_reset hp] at h
    exact .inr (.inl ⟨rest, rfl, (Host.Outcome.next.inj h).symm⟩)
  | .command w :: rest =>
    rw [step_command hp] at h
    refine .inr (.inr ⟨w, rest, rfl, ?_⟩)
    match hd : decode w with
    | .ok i => exact .inr ⟨i, rfl, by rwa [runCommand_of_decode hd] at h⟩
    | .error e =>
      rw [runCommand_of_illegal hd] at h
      exact .inl ⟨e, rfl, (Host.Outcome.next.inj h).symm⟩

end Sys2Proof.Machine
end

