-- ==== Sys2Proof/Laws/PerInstr.lean ====
section
/-! SUPPORT. Facts about every instruction as syntax, one lemma per constructor: the operation code and the operand field
of its word (30_encoding.md rules R45 to R48). -/

namespace Sys2Proof.Laws.Fields

/-- The two fields of a command's word are its operation code and its operand. -/
def Statement (i : Instr) : Prop := opField (encode i) = opCode i.mnemonic ∧ argField (encode i) = argOf i

/-- `op` of a word put together from its two fields. -/
theorem opField_append (op : BitVec 8) (arg : BitVec 24) : opField (op ++ arg) = op := by
  apply BitVec.eq_of_getLsbD_eq
  intro k hk
  have h := BitVec.getLsbD_append (x := op) (y := arg) (i := 24 + k)
  simp only [opField, BitVec.getLsbD_extractLsb', hk, decide_true, Bool.true_and]
  exact h.trans (by simp)

/-- `arg` of a word put together from its two fields. -/
theorem argField_append (op : BitVec 8) (arg : BitVec 24) : argField (op ++ arg) = arg := by
  apply BitVec.eq_of_getLsbD_eq
  intro k hk
  have h := BitVec.getLsbD_append (x := op) (y := arg) (i := k)
  simp only [argField, BitVec.getLsbD_extractLsb', hk, decide_true, Bool.true_and, Nat.zero_add]
  exact h.trans (by simp [hk])

theorem buildTable : Statement .buildTable := ⟨opField_append _ _, argField_append _ _⟩

theorem verifyTable (frame : Frame) : Statement (.verifyTable frame) := ⟨opField_append _ _, argField_append _ _⟩

theorem verifyDirect (frame : Frame) : Statement (.verifyDirect frame) := ⟨opField_append _ _, argField_append _ _⟩

theorem readTable (idx : Index) : Statement (.readTable idx) := ⟨opField_append _ _, argField_append _ _⟩

end Sys2Proof.Laws.Fields
end

