-- ==== Sys2Proof/Laws/Safety.lean ====
section
/-! SUPPORT. The small lemmas of the invariant and of the built table. -/

namespace Sys2Proof.Machine

theorem builtTable_wf : builtTable.wf = true := by decide +kernel

theorem builtTable_holdsEntries : builtTable.holdsEntries := by
  unfold Table.holdsEntries
  decide +kernel

/-- The table the builder leaves over a canonical table is the whole built table. -/
theorem filledTable_eq (t : Table) (h : t.wf = true) : filledTable t = builtTable :=
  Table.ext_of_wf (filledTable_wf t h) builtTable_wf fun i => by
    rw [filledTable_get, builtTable_holdsEntries i]

/-- In canonical form, a table that holds every entry is the built table. -/
theorem Table.eq_builtTable {t : Table} (h : t.wf = true) (ht : t.holdsEntries) : t = builtTable :=
  Table.ext_of_wf h builtTable_wf fun i => by rw [ht i, builtTable_holdsEntries i]

/-- In canonical form, a table that holds nothing is the empty list. -/
theorem Table.eq_nil {t : Table} (h : t.wf = true) (ht : t.holdsNothing) : t = [] :=
  Table.ext_of_wf h Table.wf_nil fun i => by rw [ht i, Table.get_nil]

theorem Table.holdsNothing_nil : Table.holdsNothing [] := fun _ => rfl

theorem filledTable_holdsEntries (t : Table) : (filledTable t).holdsEntries := filledTable_get t

theorem State.Inv.holds {s : State} (h : s.Inv) (hb : s.TABLE_BUILT = true) : s.TABLE.holdsEntries := by
  rcases h with ⟨h', _⟩ | ⟨_, h'⟩
  · simp [hb] at h'
  · exact h'

theorem State.Inv.nothing {s : State} (h : s.Inv) (hb : s.TABLE_BUILT = false) : s.TABLE.holdsNothing := by
  rcases h with ⟨_, h'⟩ | ⟨h', _⟩
  · exact h'
  · simp [hb] at h'

/-- The invariant is about the persistent state only. -/
theorem State.Inv.of_same {s t : State} (h : s.Inv) (hs : s.SamePersistent t) : t.Inv := by
  unfold State.Inv
  rw [← hs.1, ← hs.2]
  exact h

@[simp] theorem answered_TABLE_BUILT (s : State) (w : ResponseWord) : (s.answered w).TABLE_BUILT = s.TABLE_BUILT := rfl
@[simp] theorem answered_TABLE (s : State) (w : ResponseWord) : (s.answered w).TABLE = s.TABLE := rfl
@[simp] theorem answered_pending (s : State) (w : ResponseWord) : (s.answered w).pending = s.pending := rfl
@[simp] theorem answered_responses (s : State) (w : ResponseWord) :
    (s.answered w).responses = s.responses ++ [w] := rfl

/-- A response is the state with its word appended. -/
theorem respond_eq_answered (r : Response) (s : State) : respond r s = s.answered r.word := rfl

end Sys2Proof.Machine
end

