-- ==== Sys2Proof/Tests/Slice0.lean ====
section
/-! SUPPORT. The model's own tests, their expected values taken from the spec (each names its source), and a witness for
the hypotheses of every statement that has hypotheses. -/

namespace Sys2Proof.Tests

open Sys2Proof.Machine

/-! ## Helpers -/

/-- The responses after a step that ends in a next state. -/
def responsesOf (o : Host.Outcome State Fault Refusal) : Option (List ResponseWord) :=
  match o with
  | .next t => some t.responses
  | .fault _ => none
  | .refused _ => none

/-- What index `i` holds after a step that ends in a next state with TABLE_BUILT = 1. -/
def builtEntryOf (o : Host.Outcome State Fault Refusal) (i : Nat) : Option Entry :=
  match o with
  | .next t => if t.TABLE_BUILT then Table.get t.TABLE i else none
  | .fault _ => none
  | .refused _ => none

/-- The state in which the table is built and nothing else has happened. -/
def built : State := { State.reset with TABLE_BUILT := true, TABLE := builtTable }

/-- The state after reset in which the host has issued one command word. -/
def issued (w : Command) : State := { State.reset with pending := [.command w] }

/-! ## Well-formed words (30_encoding.md R48, R51): each row's check refuses an ill-formed word -/

theorem test_wellFormed_refuses_op_zero : wordWellFormed 0x00000000#32 = false := by decide
theorem test_wellFormed_refuses_unused_op : wordWellFormed 0x05000000#32 = false := by decide
theorem test_wellFormed_refuses_build_operand : wordWellFormed 0x01000001#32 = false := by decide
theorem test_wellFormed_refuses_read_upper : wordWellFormed 0x04000100#32 = false := by decide
theorem test_wellFormed_refuses_all_ones : wordWellFormed 0xFFFFFFFF#32 = false := by decide
theorem test_wellFormed_accepts_each_row :
    wordWellFormed 0x01000000#32 = true ∧ wordWellFormed 0x02FFFFFF#32 = true ∧ wordWellFormed 0x03FFFFFF#32 = true ∧
      wordWellFormed 0x040000FF#32 = true := by decide
theorem test_instr_wellFormed : (Instr.readTable 0xFF#8).wellFormed = true := by decide

/-! ## Decoding: words written bit by bit from R48 -/

theorem test_decode_buildTable : decode 0b00000001_00000000_00000000_00000000#32 = .ok .buildTable := by decide
/-- byte0 = 0xFD, byte1 = 0x42, byte2 = 0xD9 (R52). -/
theorem test_decode_verifyTable :
    decode 0b00000010_11111101_01000010_11011001#32 = .ok (.verifyTable 0xFD42D9#24) := by decide
theorem test_decode_verifyDirect :
    decode 0b00000011_11111101_01000010_11011001#32 = .ok (.verifyDirect 0xFD42D9#24) := by decide
theorem test_decode_readTable : decode 0b00000100_00000000_00000000_01101001#32 = .ok (.readTable 0x69#8) := by decide
/-- 95_test_vectors.md section 8: all eight op bits are decoded. -/
theorem test_decode_op_82 : decode 0x82FD42D9#32 = .error .opUnused := by decide
theorem test_decode_build_top_operand_bit : decode 0x01800000#32 = .error .buildOperandNotZero := by decide
theorem test_decode_read_top_operand_bit : decode 0x04800000#32 = .error .readUpperNotZero := by decide
theorem test_decode_zero : decode 0x00000000#32 = .error .opZero := by decide
theorem test_decodeTableWord : decodeTableWord 32 0x03FD42D9 = some (.verifyDirect 0xFD42D9#24) := by decide
theorem test_frame_bytes : frameByte 0xFD42D9#24 0 = 0xFD#8 ∧ frameByte 0xFD42D9#24 1 = 0x42#8 ∧
    frameByte 0xFD42D9#24 2 = 0xD9#8 := by decide

/-! ## The assembler syntax: the examples of R52 -/

theorem test_assemble_verifyTable :
    readLine (mnemonicText .VERIFY_TABLE ++ [' ', ' ', '0', 'x', 'F', 'D', ',', ' ', '0', 'x', '4', '2', ',', ' ', '0',
      'x', 'D', '9', ' ', ' ', ';', ' ', 'C']) = some (.verifyTable 0xFD42D9#24) := by decide
theorem test_assemble_program :
    assemble [[';', 'b'], mnemonicText .BUILD_TABLE ++ [' ', ';'],
      mnemonicText .READ_TABLE ++ [' ', '0', 'x', '6', '9']] = some [0x01000000#32, 0x04000069#32] := by decide
theorem test_assemble_refuses_bare_number :
    readLine (mnemonicText .READ_TABLE ++ [' ', '6', '9']) = none := by decide

/-! ## The units' functions: 95_test_vectors.md sections 2, 4, 6, 9.4 -/

theorem test_divStep_bit15_is_not_tested : divStep 0x8000#16 Config.POLY = 0x0000#16 := by decide
theorem test_divStep_all_ones : divStep 0xFFFF#16 Config.POLY = 0xFE62#16 := by decide
theorem test_tableEntry_69 : tableEntry 0x69#8 = 0x11#6 := by decide
theorem test_tableEntry_97 : tableEntry 0x97#8 = 0x3F#6 := by decide
theorem test_foldIndex_all_ones : foldIndex 0x3F#6 0xFF#8 = 0x03#8 := by decide
theorem test_step6_all_one_zero_group :
    step6 #v[true, true, true, true, true, true, false] (groupBits 0x00#6) =
      #v[false, false, false, true, true, false, true] := by decide
theorem test_step6_group_one : num (step6 #v[false, false, false, false, false, false, true] (groupBits 0x01#6)) =
    0x27#6 := by decide
theorem test_ser : ser 0x25#6 false = 0x2D#6 ∧ ser 0x3F#6 true = 0x3E#6 := by decide
theorem test_serN : serN 0x25#6 0xFD#8 8 = 0x11#6 := by decide

/-! ## One step of each command: 95_test_vectors.md sections 3.3, 5, 7, 8 -/

theorem test_build_entry_3E : builtEntryOf (step (issued 0x01000000#32)) 0x3E = some 0x3F#6 := by decide +kernel
theorem test_build_response : responsesOf (step (issued 0x01000000#32)) = some [0x000#10] := by decide
theorem test_read_69 : responsesOf (exec (.readTable 0x69#8) built) = some [0x011#10] := by decide +kernel
theorem test_read_not_built : responsesOf (step (issued 0x04000069#32)) = some [0x200#10] := by decide
theorem test_verifyTable_good : responsesOf (exec (.verifyTable 0xFFFDDA#24) built) = some [0x001#10] := by
  decide +kernel
theorem test_verifyTable_bad : responsesOf (exec (.verifyTable 0xF95DC0#24) built) = some [0x000#10] := by
  decide +kernel
/-- Valid although `c[6]` ends at 1. -/
theorem test_verifyDirect_good : responsesOf (step (issued 0x03FD86E0#32)) = some [0x001#10] := by decide
theorem test_verifyDirect_bad : responsesOf (step (issued 0x03FD86E2#32)) = some [0x000#10] := by decide
theorem test_illegal_outranks_not_built : responsesOf (step (issued 0x04000100#32)) = some [0x100#10] := by decide
theorem test_withFetchWord : responsesOf (step (State.reset.withFetchWord 32 0x03000039)) = some [0x001#10] := by decide
/-- A state that 10_state.md R14 rules out: the model stops, and gives no value. -/
theorem test_entry_without_value :
    exec (.readTable 0x00#8) { State.reset with TABLE_BUILT := true } = .fault (.entryWithoutValue 0x00#8) := rfl

/-! ## Witnesses: the hypotheses of the statements can be met -/

theorem reset_Inv : State.reset.Inv := .inl ⟨rfl, fun _ => rfl⟩
theorem built_Inv : built.Inv := .inr ⟨rfl, builtTable_holdsEntries⟩
theorem built_Canonical : built.Canonical := builtTable_wf

/-- A state of the invariant without a table, and one with it. -/
theorem reset_meets : State.reset.Inv ∧ State.reset.TABLE_BUILT = false := ⟨reset_Inv, rfl⟩
theorem built_meets : built.Inv ∧ built.TABLE_BUILT = true := ⟨built_Inv, rfl⟩

/-- Commands complete in these states: BUILD_TABLE and VERIFY_DIRECT in any, READ_TABLE with the table built. -/
theorem build_completes (s : State) : ∃ t, exec .buildTable s = .next t ∧ t.TABLE_BUILT = true := by
  simp only [exec, execBuildTable, finish_ok, Host.Outcome.next.injEq, exists_eq_left', respond_TABLE_BUILT,
    setBuilt_TABLE_BUILT]
theorem direct_completes (f : Frame) (s : State) : ∃ t, exec (.verifyDirect f) s = .next t := by
  simp only [exec, execVerifyDirect, finish_ok]
  exact ⟨_, rfl⟩
theorem read_completes : ∃ t, exec (.readTable 0xFF#8) built = .next t := by
  have h : memRead 0xFF#8 built = .ok (tableEntry 0xFF#8) := memRead_of_get rfl (builtTable_holdsEntries 0xFF#8)
  simp only [exec, execReadTable, h, Except.map, finish_ok]
  exact ⟨_, rfl⟩
/-- The word of BUILD_TABLE completes in any state. -/
theorem build_word_completes (s : State) : ∃ t, runCommand 0x01000000#32 s = .next t ∧ t.TABLE_BUILT = true := by
  rw [runCommand_of_decode (i := .buildTable) (by decide)]
  exact build_completes s
theorem direct_word_completes (s : State) : ∃ t, runCommand 0x03000000#32 s = .next t := by
  rw [runCommand_of_decode (i := .verifyDirect 0x000000#24) (by decide)]
  exact direct_completes _ s

theorem witness_DecodeOfEncodeIsTheCommand : (Instr.verifyTable 0xFFFFFF#24).wellFormed = true := by decide
theorem witness_EncodeOfDecodeIsTheWord : decode 0x040000FF#32 = .ok (.readTable 0xFF#8) := by decide
/-- The clauses at their boundary values: op 0x01 with arg 0, 0x02, 0x03, 0x04 with the largest index; and for the last
clause op 0x00, 0x05 and 0xFF, an operand of BUILD_TABLE, the first index of READ_TABLE that is too large. -/
theorem witness_DecodeFollowsOpAndArg :
    ((0x01000000#32).toNat / 2 ^ 24 = 0x01 ∧ (0x01000000#32).toNat % 2 ^ 24 = 0) ∧
    (0x02000000#32).toNat / 2 ^ 24 = 0x02 ∧ (0x03FFFFFF#32).toNat / 2 ^ 24 = 0x03 ∧
    ((0x040000FF#32).toNat / 2 ^ 24 = 0x04 ∧ (0x040000FF#32).toNat % 2 ^ 24 / 2 ^ 8 = 0) ∧
    (∀ w ∈ [0x00000000#32, 0x05000000#32, 0xFFFFFFFF#32, 0x01000001#32, 0x04000100#32],
      ¬(w.toNat / 2 ^ 24 = 0x01 ∧ w.toNat % 2 ^ 24 = 0) ∧ w.toNat / 2 ^ 24 ≠ 0x02 ∧ w.toNat / 2 ^ 24 ≠ 0x03 ∧
        ¬(w.toNat / 2 ^ 24 = 0x04 ∧ w.toNat % 2 ^ 24 / 2 ^ 8 = 0)) := by simp
theorem witness_IllegalWordsAnswerIllegalCommand :
    (∀ w ∈ [0x00000000#32, 0x00FFFFFF#32], w.toNat / 2 ^ 24 = 0x00) ∧
    (∀ w ∈ [0x05000000#32, 0xFFFFFFFF#32], 0x05 ≤ w.toNat / 2 ^ 24) ∧
    (∀ w ∈ [0x01000001#32, 0x01FFFFFF#32], w.toNat / 2 ^ 24 = 0x01 ∧ w.toNat % 2 ^ 24 ≠ 0) ∧
    (∀ w ∈ [0x04000100#32, 0x04FFFFFF#32], w.toNat / 2 ^ 24 = 0x04 ∧ w.toNat % 2 ^ 24 / 2 ^ 8 ≠ 0) ∧
    [0x00000000#32, 0x00FFFFFF#32, 0x05000000#32, 0xFFFFFFFF#32].map decode =
      [.error .opZero, .error .opZero, .error .opUnused, .error .opUnused] ∧
    [0x01000001#32, 0x01FFFFFF#32, 0x04000100#32, 0x04FFFFFF#32].map decode =
      [.error .buildOperandNotZero, .error .buildOperandNotZero, .error .readUpperNotZero, .error .readUpperNotZero] :=
  ⟨by simp, by simp, by simp, by simp, rfl, rfl⟩
theorem witness_FrameOperandIsTheLowBits :
    (0x02FFFFFF#32).toNat / 2 ^ 24 = 0x02 ∧ (0x03000000#32).toNat / 2 ^ 24 = 0x03 := by decide
theorem witness_MemReadFaultsOrFindsTheValue :
    (State.reset.Inv ∧ State.reset.TABLE_BUILT = false) ∧ built.Inv ∧ built.TABLE_BUILT = true :=
  ⟨reset_meets, built_meets⟩
theorem witness_MemWriteSetsOneEntry : (0xFE : Nat) ≠ (0xFF#8).toNat ∧ built.TABLE.wf = true :=
  ⟨by decide, builtTable_wf⟩
theorem witness_BuiltTableIsNeverModified :
    (Instr.readTable 0xFF#8 ≠ .buildTable ∧ ∃ t, exec (.readTable 0xFF#8) built = .next t) ∧
    (built.Inv ∧ built.TABLE_BUILT = true ∧ ∃ t, exec .buildTable built = .next t ∧ t.TABLE_BUILT = true) ∧
    ∃ t, runCommand 0x03000000#32 built = .next t :=
  ⟨⟨by decide, read_completes⟩, ⟨built_Inv, rfl, build_completes built⟩, direct_word_completes built⟩
theorem witness_WorkingValueStaysInItsLane : (0x00FF#16).toNat ≤ 0x00FF ∧ (8 : Nat) ≤ 8 ∧ (9 : Nat) ≤ 9 := by decide
theorem witness_BuildTableWritesEveryEntry : built.Inv ∧ built.TABLE_BUILT = true ∧ (256 : Nat) ≤ 256 ∧ (8 : Nat) ≤ 8 :=
  ⟨built_Inv, rfl, by decide, by decide⟩
theorem witness_BuildLeavesTheCanonicalTable :
    State.reset.Canonical ∧ built.Canonical ∧ built.Inv ∧ built.TABLE_BUILT = true :=
  ⟨rfl, built_Canonical, built_Inv, rfl⟩
theorem witness_ReadTableAnswersTheEntry :
    State.reset.TABLE_BUILT = false ∧ built.Inv ∧ built.TABLE_BUILT = true := ⟨rfl, built_meets⟩
theorem witness_RebuiltTableReadsTheSame : State.reset.Inv ∧ built.Inv := ⟨reset_Inv, built_Inv⟩
theorem witness_FoldReadsTheIndexedEntry :
    (2 : Nat) < 3 ∧ (∃ v, memRead (foldIndex 0x25#6 (frameByte 0xFD42D9#24 0)) built = .ok v) ∧
    (∃ e, memRead (foldIndex 0x25#6 (frameByte 0xFD42D9#24 0)) State.reset = .error e) ∧
    built.Inv ∧ built.TABLE_BUILT = true :=
  ⟨by decide, ⟨_, memRead_of_get (s := built) rfl (builtTable_holdsEntries (foldIndex 0x25#6 (frameByte 0xFD42D9#24 0)))⟩,
    ⟨_, rfl⟩, built_meets⟩
theorem witness_CrcTableFoldsTheBytesFromSeed : built.Inv ∧ built.TABLE_BUILT = true := built_meets
theorem witness_VerifyTableAnswersZeroResidual :
    State.reset.TABLE_BUILT = false ∧ built.Inv ∧ built.TABLE_BUILT = true := ⟨rfl, built_meets⟩
theorem witness_GroupsAreTheFrameFromTheTop : (5 : Nat) < 6 := by decide
/-- Two vectors that differ in `c[6]` only. -/
theorem witness_InitialVectorHoldsSeed : ∀ k : Fin 6,
    (#v[true, false, true, false, false, true, false] : Vector Bool 7)[k] =
      (#v[true, false, true, false, false, true, true] : Vector Bool 7)[k] := by decide
/-- Two different pairs with the same sum. -/
theorem witness_StepSixFollowsTheEquations :
    (∀ k : Fin 6, (#v[true, false, true, false, false, true, false] : Vector Bool 7)[k] =
      (#v[true, false, true, false, false, true, true] : Vector Bool 7)[k]) ∧
    num initC ^^^ 0x25#6 = num #v[false, false, false, false, false, false, false] ^^^ 0x00#6 := by decide
theorem witness_ValidityIgnoresTheCarrySlot : (3 : Nat) < 4 := by decide
theorem witness_BothVerifiersRespondAlike : built.Inv ∧ built.TABLE_BUILT = true := built_meets
theorem witness_SingleBitErrorsAreDetected : validFrame 0xFFFFD7#24 ∧ (22 : Nat) < 23 ∧ (23 : Nat) < 24 :=
  ⟨by unfold validFrame; decide +kernel, by decide, by decide⟩
theorem witness_CheckBitsFollowFromDataBits : validFrame 0x000039#24 := by unfold validFrame; decide +kernel
theorem witness_UseBeforeBuildAnswersTableNotBuilt :
    State.reset.TABLE_BUILT = false ∧ decode 0x02FFFFFF#32 = .ok (.verifyTable 0xFFFFFF#24) ∧
      decode 0x040000FF#32 = .ok (.readTable 0xFF#8) := by decide
theorem witness_FaultsChangeNoPersistentState :
    runCommand 0x00000000#32 built = .next (built.answered 0x100#10) ∧
    runCommand 0x040000FF#32 State.reset = .next (State.reset.answered 0x200#10) := ⟨rfl, rfl⟩
theorem witness_IllegalCommandComesFirst :
    decode 0x01800000#32 = .error .buildOperandNotZero ∧
    (decode 0x03000000#32 = .ok (.verifyDirect 0x000000#24) ∧ ∃ t, runCommand 0x03000000#32 built = .next t) :=
  ⟨by decide, by decide, direct_word_completes built⟩
theorem witness_FaultsAreFollowedByTheNextCommand : built.Inv ∧ State.reset.TABLE_BUILT = false := ⟨built_Inv, rfl⟩
/-- One word of each command, and one illegal word, that complete. -/
theorem witness_EveryCommandReturnsOneWord :
    (∃ t, runCommand 0x01000000#32 State.reset = .next t ∧ t.TABLE_BUILT = true) ∧
    decode 0x01000000#32 = .ok .buildTable ∧
    (∃ t, runCommand 0x02FFFFFF#32 State.reset = .next t) ∧ decode 0x02FFFFFF#32 = .ok (.verifyTable 0xFFFFFF#24) ∧
    (∃ t, runCommand 0x03000000#32 built = .next t) ∧ decode 0x03000000#32 = .ok (.verifyDirect 0x000000#24) ∧
    (∃ t, runCommand 0x040000FF#32 built = .next t) ∧ decode 0x040000FF#32 = .ok (.readTable 0xFF#8) ∧
    (∃ t, runCommand 0xFFFFFFFF#32 built = .next t) ∧ built.Inv ∧ built.TABLE_BUILT = true :=
  ⟨build_word_completes _, by decide, ⟨_, rfl⟩, by decide, direct_word_completes _, by decide,
    by rw [runCommand_of_decode (i := .readTable 0xFF#8) (by decide)]; exact read_completes, by decide, ⟨_, rfl⟩,
    built_meets⟩
/-- The clause of VERIFY_TABLE with the table built has a run: its fold completes. -/
theorem witness_verifyTable_completes : ∃ t, exec (.verifyTable 0xFD42D9#24) built = .next t := by
  have h := foldRun_of_holds (Config.foldLeftover built.responses.length) 0xFD42D9#24 (s := built) rfl
    builtTable_holdsEntries
  match hr : foldRun (Config.foldLeftover built.responses.length) 0xFD42D9#24 built with
  | .ok g =>
    simp only [exec, execVerifyTable, hr, Except.map, finish_ok]
    exact ⟨_, rfl⟩
  | .error e =>
    rw [hr] at h
    simp [Except.map] at h
theorem witness_EveryStepCompletes : State.reset.Inv ∧ built.Inv := ⟨reset_Inv, built_Inv⟩
theorem witness_StepKeepsTheTableInvariant : built.Inv ∧ ∃ t, step built = .next t := ⟨built_Inv, ⟨_, rfl⟩⟩
theorem witness_StepKeepsCanonicalFormAndLegalResponses :
    (∃ t, step (issued 0x03000000#32) = .next t) ∧ (issued 0x03000000#32).Canonical ∧
      (issued 0x03000000#32).ResponsesLegal := ⟨⟨_, rfl⟩, rfl, by simp [State.ResponsesLegal, issued]⟩
theorem witness_ResetLosesTheTable : built.Inv ∧ built.TABLE_BUILT = true := built_meets
/-- A command that keeps TABLE_BUILT at 1, the command that sets it, and the operands of the last clause. -/
theorem witness_TableBuiltIsSetByBuildAndClearedByReset :
    ((∃ t, runCommand 0x03000000#32 built = .next t) ∧ built.TABLE_BUILT = true) ∧
    (State.reset.TABLE_BUILT = false ∧ ∃ t, runCommand 0x01000000#32 State.reset = .next t ∧ t.TABLE_BUILT = true) ∧
    (built.Inv ∧ ∃ f, Instr.verifyTable 0xFFFFFF#24 = .verifyTable f) :=
  ⟨⟨direct_word_completes built, rfl⟩, ⟨rfl, build_word_completes _⟩, built_Inv, _, rfl⟩
theorem witness_ResponseDependsOnWordAndPersistentState :
    (built.SamePersistent (built.answered 0x001#10) ∧ ∃ t, runCommand 0x03000000#32 built = .next t) ∧
    built.Inv ∧ built.TABLE_BUILT = true := ⟨⟨⟨rfl, rfl⟩, direct_word_completes built⟩, built_meets⟩
theorem witness_VerificationsLeaveNothingBehind :
    built.Inv ∧ isVerification (.verifyTable 0xFD42D9#24) = true ∧ isVerification (.verifyDirect 0x000000#24) = true ∧
      ∃ t, exec (.verifyTable 0xFD42D9#24) built = .next t :=
  ⟨built_Inv, rfl, rfl, witness_verifyTable_completes⟩
theorem witness_ResidualIsNeverReturned :
    built.Inv ∧ ¬ validFrame 0x000000#24 ∧ ¬ validFrame 0xFFFFFF#24 :=
  ⟨built_Inv, by unfold validFrame; decide +kernel, by unfold validFrame; decide +kernel⟩
theorem witness_CommandsChangeNothingElse :
    (Instr.readTable 0xFF#8 ≠ .buildTable ∧ ∃ t, exec (.readTable 0xFF#8) built = .next t) ∧
    (∃ t, exec .buildTable built = .next t ∧ t.TABLE_BUILT = true) ∧ (256 : Nat) ≤ 256 :=
  ⟨⟨by decide, read_completes⟩, build_completes built, le_rfl⟩
theorem witness_StepRunsTheNextEvent :
    (issued 0x040000FF#32).pending = [.command 0x040000FF#32] ∧ decode 0x040000FF#32 = .ok (.readTable 0xFF#8) ∧
    (issued 0x00000000#32).pending = [.command 0x00000000#32] ∧ decode 0x00000000#32 = .error .opZero ∧
    ({ State.reset with pending := [.reset] } : State).pending = [.reset] ∧ State.reset.pending = [] := by decide

end Sys2Proof.Tests
end

section
/-! What a step does with each kind of event, and the statement of 00_scope.md about it. -/

namespace Sys2Proof.Machine

/-- IllegalCommand is status 1 with data zero (R49, R112). -/
theorem takeFault_illegalCommand (s : State) : takeFault .illegalCommand s = s.answered 0x100#10 := rfl

theorem step_of_decode {s : State} {w : Command} {rest : List HostEvent} {i : Instr}
    (hp : s.pending = .command w :: rest) (hd : decode w = .ok i) : step s = exec i { s with pending := rest } :=
  (step_command hp).trans (runCommand_of_decode hd _)

theorem step_of_illegal {s : State} {w : Command} {rest : List HostEvent} {e : Illegal}
    (hp : s.pending = .command w :: rest) (hd : decode w = .error e) :
    step s = .next (State.answered { s with pending := rest } 0x100#10) := by
  rw [step_command hp, runCommand_of_illegal hd, takeFault_illegalCommand]

/-- Settles O58: one clause for each kind of event at the head of the queue, and one for the empty queue. -/
theorem stepRunsTheNextEvent : Obligations.StepRunsTheNextEvent := by
  unfold Obligations.StepRunsTheNextEvent
  refine ⟨?decoded, ?illegal, ?reset, ?idle⟩
  case decoded => exact fun _ _ _ _ hp hd => step_of_decode hp hd
  case illegal => exact fun _ _ _ _ hp hd => step_of_illegal hp hd
  case reset => exact fun _ _ hp => step_reset hp
  case idle => exact fun _ hp => step_idle hp

end Sys2Proof.Machine
end

section
/-! A command as an answer and an effect, both of them functions of the command and the persistent state (10_state.md
rule R21), since no unit reads what its working registers held before (R20); and the statements of 10_state.md. -/

namespace Sys2Proof.Machine

/-! ## The working registers (R20) -/

/-- The first fold of a loaded unit writes every register that the load does not. -/
theorem foldByte_foldLoad_congr (g g' : Config.FoldRegs) (f : Frame) (s : State) (k : Nat) :
    foldByte s (foldLoad f g) k = foldByte s (foldLoad f g') k := rfl

theorem foldRun_regs_congr (g g' : Config.FoldRegs) (f : Frame) (s : State) : foldRun g f s = foldRun g' f s := by
  simp only [foldRun, range_FRAME_BYTES, List.foldlM_cons, foldByte_foldLoad_congr g g']

/-- The first step of a loaded unit writes every register that the load does not. -/
theorem serialStep_serialLoad_congr (g g' : Config.SerialRegs) (f : Frame) (n : Nat) :
    serialStep (serialLoad f g) n = serialStep (serialLoad f g') n := rfl

/-- The groups the unit consumes, in order. -/
theorem range_GROUPS : List.range Config.GROUPS = [0, 1, 2, 3] := rfl

theorem serialRun_regs_congr (g g' : Config.SerialRegs) (f : Frame) : serialRun g f = serialRun g' f := by
  simp only [serialRun, range_GROUPS, List.foldl_cons, serialStep_serialLoad_congr g g']

/-- Settles O54: the builder's run is the same filling of the table, and each verifier's first step writes what its
load leaves. -/
theorem workingRegistersCarryNothing : Obligations.WorkingRegistersCarryNothing := by
  unfold Obligations.WorkingRegistersCarryNothing
  refine ⟨fun g g' s => ?builder, fun g g' f s => ?fold, serialRun_regs_congr⟩
  case builder => rw [builderRun_eq, builderRun_eq]
  case fold => exact ⟨congrArg _ (foldRun_regs_congr g g' f s), foldRun_regs_congr g g' f s⟩

/-! ## Answer and effect (R21) -/

/-- What a command works out: its response, or the stop it ends with. -/
def answerOf : Instr → State → Except Stop Response
  | .buildTable, _ => .ok .doneBuild
  | .verifyTable f, s => (foldRun default f s).map fun g => .doneVerify (registerIsZero g.R)
  | .verifyDirect f, _ => .ok (.doneVerify (vectorIsZero (crcDirect f)))
  | .readTable idx, s => (memRead idx s).map .doneRead

/-- The state in which a command's answer is returned: BUILD_TABLE has filled the table, the other three have written
nothing. -/
def effectOf : Instr → State → State
  | .buildTable, s => setBuilt { s with TABLE := filledTable s.TABLE }
  | .verifyTable _, s => s
  | .verifyDirect _, s => s
  | .readTable _, s => s

theorem exec_eq_finish (i : Instr) (s : State) : exec i s = finish (answerOf i s) (effectOf i s) := by
  cases i with
  | buildTable => simp only [exec, execBuildTable, builderRun_eq, answerOf, effectOf]
  | verifyTable f => simp only [exec, execVerifyTable, foldRun_regs_congr _ default, answerOf, effectOf]
  | verifyDirect f => simp only [exec, execVerifyDirect, serialRun_C, answerOf, effectOf]
  | readTable idx => rfl

theorem answerOf_congr (i : Instr) {s s' : State} (h : s.SamePersistent s') : answerOf i s = answerOf i s' := by
  obtain ⟨hb, ht⟩ := h
  cases i with
  | buildTable => rfl
  | verifyTable f => simp only [answerOf, foldRun_congr default f hb ht]
  | verifyDirect f => rfl
  | readTable idx => simp only [answerOf, memRead_congr idx hb ht]

theorem effectOf_samePersistent (i : Instr) {s s' : State} (h : s.SamePersistent s') :
    (effectOf i s).SamePersistent (effectOf i s') := by
  cases i with
  | buildTable => exact ⟨rfl, congrArg filledTable h.2⟩
  | verifyTable f => exact h
  | verifyDirect f => exact h
  | readTable idx => exact h

@[simp] theorem effectOf_responses (i : Instr) (s : State) : (effectOf i s).responses = s.responses := by
  cases i <;> rfl

/-- An answer that lets one state go on lets every state go on, with the same response. -/
theorem finish_next_uniform {r : Except Stop Response} {s t : State} (h : finish r s = .next t) :
    ∃ response, t = respond response s ∧ ∀ s', finish r s' = .next (respond response s') := by
  match r, h with
  | .ok response, h => exact ⟨response, (Host.Outcome.next.inj h).symm, fun _ => rfl⟩
  | .error (.raised c), h => exact ⟨.faulted c, (Host.Outcome.next.inj h).symm, fun _ => rfl⟩
  | .error (.noValue _), h => simp at h

/-- What a command word that ends in a next state has done: it answered one response; only BUILD_TABLE changed more. -/
theorem runCommand_next {w : Command} {s t : State} (h : runCommand w s = .next t) :
    (∃ response, t = respond response s) ∨
      (decode w = .ok .buildTable ∧ ∃ g, t = respond .doneBuild (setBuilt (builderRun g s))) := by
  match hd : decode w with
  | .error e =>
    rw [runCommand_of_illegal hd] at h
    exact .inl ⟨.faulted .illegalCommand, (Host.Outcome.next.inj h).symm⟩
  | .ok i =>
    rw [runCommand_of_decode hd] at h
    exact (exec_next h).imp_right fun ⟨hi, ht⟩ => ⟨congrArg _ hi, ht⟩

theorem exec_samePersistent {i : Instr} {s s' t : State} (hs : s.SamePersistent s') (h : exec i s = .next t) :
    ∃ (t' : State) (r : ResponseWord), exec i s' = .next t' ∧ t.SamePersistent t' ∧
      t.responses = s.responses ++ [r] ∧ t'.responses = s'.responses ++ [r] := by
  rw [exec_eq_finish] at h
  obtain ⟨response, rfl, hfinish⟩ := finish_next_uniform h
  refine ⟨respond response (effectOf i s'), response.word, ?_, effectOf_samePersistent i hs, by simp, by simp⟩
  rw [exec_eq_finish, ← answerOf_congr i hs, hfinish]

theorem runCommand_samePersistent {w : Command} {s s' t : State} (hs : s.SamePersistent s')
    (h : runCommand w s = .next t) :
    ∃ (t' : State) (r : ResponseWord), runCommand w s' = .next t' ∧ t.SamePersistent t' ∧
      t.responses = s.responses ++ [r] ∧ t'.responses = s'.responses ++ [r] := by
  match hd : decode w with
  | .error e =>
    rw [runCommand_of_illegal hd] at h ⊢
    obtain rfl := Host.Outcome.next.inj h
    exact ⟨_, _, rfl, hs, rfl, rfl⟩
  | .ok i =>
    rw [runCommand_of_decode hd] at h ⊢
    exact exec_samePersistent hs h

/-! ## What each command answers -/

theorem exec_buildTable (s : State) :
    exec .buildTable s = .next (respond .doneBuild (setBuilt { s with TABLE := filledTable s.TABLE })) :=
  exec_eq_finish .buildTable s

theorem exec_verifyDirect (f : Frame) (s : State) :
    exec (.verifyDirect f) s = .next (respond (.doneVerify (vectorIsZero (crcDirect f))) s) :=
  exec_eq_finish (.verifyDirect f) s

theorem exec_verifyTable_of_not_built (f : Frame) {s : State} (h : s.TABLE_BUILT = false) :
    exec (.verifyTable f) s = .next (respond (.faulted .tableNotBuilt) s) := by
  rw [exec_eq_finish, answerOf, foldRun_of_not_built _ _ h]
  rfl

theorem exec_verifyTable_of_holds (f : Frame) {s : State} (h : s.TABLE_BUILT = true) (ht : s.TABLE.holdsEntries) :
    exec (.verifyTable f) s = .next (respond (.doneVerify (registerIsZero (crcTable f))) s) := by
  have hrun : answerOf (.verifyTable f) s =
      ((foldRun default f s).map (·.R)).map fun r => .doneVerify (registerIsZero r) := by
    simp only [answerOf]
    cases foldRun default f s <;> rfl
  rw [exec_eq_finish, hrun, foldRun_of_holds default f h ht]
  rfl

theorem exec_readTable_of_not_built (idx : Index) {s : State} (h : s.TABLE_BUILT = false) :
    exec (.readTable idx) s = .next (respond (.faulted .tableNotBuilt) s) := by
  rw [exec_eq_finish, answerOf, memRead_of_not_built _ h]
  rfl

theorem exec_readTable_of_holds (idx : Index) {s : State} (h : s.TABLE_BUILT = true) (ht : s.TABLE.holdsEntries) :
    exec (.readTable idx) s = .next (respond (.doneRead (tableEntry idx)) s) := by
  rw [exec_eq_finish, answerOf, memRead_of_get h (ht idx)]
  rfl

/-- Settles O53: the answer and the effect of a command are functions of the persistent state. -/
theorem responseDependsOnWordAndPersistentState : Obligations.ResponseDependsOnWordAndPersistentState := by
  unfold Obligations.ResponseDependsOnWordAndPersistentState
  refine ⟨?any, ?direct, ?table⟩
  case any => exact fun _ _ _ _ hs h => runCommand_samePersistent hs h
  case direct => exact fun s s' f => ⟨_, exec_verifyDirect f s, exec_verifyDirect f s'⟩
  case table =>
    intro s s' f hs hs' hb hb'
    exact ⟨_, exec_verifyTable_of_holds f hb (hs.holds hb), exec_verifyTable_of_holds f hb' (hs'.holds hb')⟩

/-! ## The invariant (R14) -/

theorem resetBlock_Inv (s : State) : (resetBlock s).Inv := .inl ⟨rfl, Table.holdsNothing_nil⟩

/-- A response changes nothing that the invariant is about. -/
theorem State.Inv.responded {s : State} (h : s.Inv) (r : Response) : (respond r s).Inv := h.of_same ⟨rfl, rfl⟩

/-- Once every entry is written and TABLE_BUILT set, the invariant holds, whatever it was before. -/
theorem setBuilt_builderRun_Inv (g : Config.BuilderRegs) (s : State) : (setBuilt (builderRun g s)).Inv := by
  rw [builderRun_eq]
  exact .inr ⟨setBuilt_TABLE_BUILT _, filledTable_holdsEntries s.TABLE⟩

theorem exec_keeps_Inv {i : Instr} {s t : State} (hs : s.Inv) (h : exec i s = .next t) : t.Inv := by
  obtain ⟨response, rfl⟩ | ⟨-, g, rfl⟩ := exec_next h
  · exact hs.responded response
  · exact (setBuilt_builderRun_Inv g s).responded .doneBuild

/-- Settles O45: a reset and BUILD_TABLE establish the invariant; every other step leaves the persistent state. -/
theorem stepKeepsTheTableInvariant : Obligations.StepKeepsTheTableInvariant := by
  unfold Obligations.StepKeepsTheTableInvariant
  intro s t hs h
  have htaken (rest : List HostEvent) : ({ s with pending := rest } : State).Inv := hs.of_same ⟨rfl, rfl⟩
  obtain ⟨-, rfl⟩ | ⟨rest, -, rfl⟩ | ⟨w, rest, -, ⟨e, -, rfl⟩ | ⟨i, -, hexec⟩⟩ := step_cases h
  · exact hs
  · exact resetBlock_Inv _
  · exact (htaken rest).responded (.faulted .illegalCommand)
  · exact exec_keeps_Inv (htaken rest) hexec

/-- Settles O48: a cleared table holds no value, its list is canonical, and no response has been returned. -/
theorem resetEstablishesTheTableInvariant : Obligations.ResetEstablishesTheTableInvariant := by
  unfold Obligations.ResetEstablishesTheTableInvariant
  refine ⟨?inv, Table.wf_nil, ?responses, resetBlock_Inv⟩
  case inv => exact resetBlock_Inv State.reset
  case responses => simp [State.ResponsesLegal]

/-! ## TABLE_BUILT (R13) -/

/-- The status field of a response word is its status (R49). -/
@[simp] theorem word_status (r : Response) : r.word.extractLsb' 8 2 = r.status :=
  BitVec.extractLsb'_append_eq_left

/-- With the table built, VERIFY_TABLE and READ_TABLE end with status DONE. -/
theorem reader_done_of_holds {i : Instr} {s : State} (hi : (∃ f, i = .verifyTable f) ∨ ∃ k, i = .readTable k)
    (h : s.TABLE_BUILT = true) (ht : s.TABLE.holdsEntries) :
    ∃ response : Response, exec i s = .next (respond response s) ∧ response.status = 0#2 := by
  obtain ⟨f, rfl⟩ | ⟨k, rfl⟩ := hi
  · exact ⟨_, exec_verifyTable_of_holds f h ht, rfl⟩
  · exact ⟨_, exec_readTable_of_holds k h ht, rfl⟩

/-- With the table not built, VERIFY_TABLE and READ_TABLE raise TableNotBuilt. -/
theorem reader_faults_of_not_built {i : Instr} {s : State}
    (hi : (∃ f, i = .verifyTable f) ∨ ∃ k, i = .readTable k) (h : s.TABLE_BUILT = false) :
    exec i s = .next (s.answered 0x200#10) := by
  obtain ⟨f, rfl⟩ | ⟨k, rfl⟩ := hi
  · exact exec_verifyTable_of_not_built f h
  · exact exec_readTable_of_not_built k h

/-- No command clears TABLE_BUILT. -/
theorem runCommand_keeps_built {w : Command} {s t : State} (h : runCommand w s = .next t)
    (hb : s.TABLE_BUILT = true) : t.TABLE_BUILT = true := by
  obtain ⟨response, rfl⟩ | ⟨-, g, rfl⟩ := runCommand_next h
  · exact hb
  · rfl

/-- No command but BUILD_TABLE sets TABLE_BUILT. -/
theorem decode_eq_buildTable_of_built {w : Command} {s t : State} (h : runCommand w s = .next t)
    (hb : s.TABLE_BUILT = false) (ht : t.TABLE_BUILT = true) : decode w = .ok .buildTable := by
  obtain ⟨response, rfl⟩ | ⟨hd, -⟩ := runCommand_next h
  · exact absurd ht (by simp [hb])
  · exact hd

/-- The response of a command that reads the table tells TABLE_BUILT. -/
theorem reader_tells_built {i : Instr} {s : State} (hs : s.Inv)
    (hi : (∃ f, i = .verifyTable f) ∨ ∃ k, i = .readTable k) :
    ∃ r : ResponseWord, exec i s = .next (s.answered r) ∧
      (s.TABLE_BUILT = false ↔ r = 0x200#10) ∧ (s.TABLE_BUILT = true ↔ r.extractLsb' 8 2 = 0#2) := by
  cases hb : s.TABLE_BUILT with
  | false => exact ⟨0x200#10, reader_faults_of_not_built hi hb, by decide, by decide⟩
  | true =>
    obtain ⟨response, hexec, hdone⟩ := reader_done_of_holds hi hb (hs.holds hb)
    have hstatus : response.word.extractLsb' 8 2 = 0#2 := (word_status response).trans hdone
    have hword : response.word ≠ 0x200#10 := fun h => absurd (h ▸ hstatus) (by decide)
    exact ⟨response.word, hexec, by simp [hword], by simp [hdone]⟩

/-- Settles O51: reset clears TABLE_BUILT, BUILD_TABLE alone sets it, and the two readers' responses tell it. -/
theorem tableBuiltIsSetByBuildAndClearedByReset : Obligations.TableBuiltIsSetByBuildAndClearedByReset := by
  unfold Obligations.TableBuiltIsSetByBuildAndClearedByReset
  refine ⟨reset_TABLE_BUILT, resetBlock_TABLE_BUILT, ?build, ?kept, ?set, ?told⟩
  case build => exact fun s => ⟨_, exec_buildTable s, rfl, filledTable_holdsEntries s.TABLE⟩
  case kept => exact fun _ _ _ => runCommand_keeps_built
  case set => exact fun _ _ _ => decode_eq_buildTable_of_built
  case told => exact fun _ _ => reader_tells_built

end Sys2Proof.Machine
end

section
/-! The table memory under its two operations and under every step of the block, the response words that can occur
(30_encoding.md rule R49), and the statements of 20_memory.md. -/

namespace Sys2Proof.Machine

/-! ## The response words that can occur (R49) -/

/-- READ_TABLE's response word is its entry, zero-extended (R35, R49). -/
theorem word_doneRead (entry : Entry) : (Response.doneRead entry).word = entry.setWidth 10 := by
  have hword : (Response.doneRead entry).word = (entry.setWidth 8).setWidth 10 :=
    (BitVec.setWidth_eq_append (by decide)).symm
  rw [hword, BitVec.setWidth_setWidth (by decide)]

/-- No response is any word but the 66. -/
theorem responseWordOccurs_word (r : Response) : responseWordOccurs r.word = true := by
  cases r with
  | doneBuild => decide
  | doneVerify valid => cases valid <;> decide
  | doneRead entry =>
    have hword : (Response.doneRead entry).word.toNat < 0x40 := by
      rw [word_doneRead, BitVec.toNat_setWidth_of_le (by decide)]
      exact entry.isLt
    simp [responseWordOccurs, hword]
  | faulted c => cases c <;> decide

theorem State.ResponsesLegal.responded {s : State} (h : s.ResponsesLegal) (r : Response) :
    (respond r s).ResponsesLegal := by
  intro w hw
  rw [respond_responses, List.mem_append, List.mem_singleton] at hw
  obtain hold | rfl := hw
  · exact h w hold
  · exact responseWordOccurs_word r

theorem exec_keeps_ResponsesLegal {i : Instr} {s t : State} (hs : s.ResponsesLegal) (h : exec i s = .next t) :
    t.ResponsesLegal := by
  obtain ⟨response, rfl⟩ | ⟨-, g, rfl⟩ := exec_next h
  · exact hs.responded response
  · rw [builderRun_eq]
    have hbuilt : (setBuilt { s with TABLE := filledTable s.TABLE }).ResponsesLegal := hs
    exact hbuilt.responded .doneBuild

/-- A reset returns no response; every command returns one that can occur. -/
theorem step_keeps_ResponsesLegal {s t : State} (h : step s = .next t) (hs : s.ResponsesLegal) :
    t.ResponsesLegal := by
  have htaken (rest : List HostEvent) : ({ s with pending := rest } : State).ResponsesLegal := hs
  obtain ⟨-, rfl⟩ | ⟨rest, -, rfl⟩ | ⟨w, rest, -, ⟨e, -, rfl⟩ | ⟨i, -, hexec⟩⟩ := step_cases h
  · exact hs
  · exact htaken rest
  · exact (htaken rest).responded (.faulted .illegalCommand)
  · exact exec_keeps_ResponsesLegal (htaken rest) hexec

/-! ## The canonical form of the table -/

theorem exec_keeps_Canonical {i : Instr} {s t : State} (hs : s.Canonical) (h : exec i s = .next t) :
    t.Canonical := by
  obtain ⟨response, rfl⟩ | ⟨-, g, rfl⟩ := exec_next h
  · exact hs
  · rw [builderRun_eq]
    exact filledTable_wf s.TABLE hs

/-- A reset empties the table and BUILD_TABLE fills it in order; every other step leaves it. -/
theorem step_keeps_Canonical {s t : State} (h : step s = .next t) (hs : s.Canonical) : t.Canonical := by
  have htaken (rest : List HostEvent) : ({ s with pending := rest } : State).Canonical := hs
  obtain ⟨-, rfl⟩ | ⟨rest, -, rfl⟩ | ⟨w, rest, -, ⟨e, -, rfl⟩ | ⟨i, -, hexec⟩⟩ := step_cases h
  · exact hs
  · exact resetBlock_wf _
  · exact htaken rest
  · exact exec_keeps_Canonical (htaken rest) hexec

/-- Settles O46: by the cases of a step, once for the table's form and once for the responses. -/
theorem stepKeepsCanonicalFormAndLegalResponses : Obligations.StepKeepsCanonicalFormAndLegalResponses := by
  unfold Obligations.StepKeepsCanonicalFormAndLegalResponses
  exact fun _ _ h => ⟨step_keeps_Canonical h, step_keeps_ResponsesLegal h⟩

/-! ## Reading and writing one entry (R33, R34) -/

/-- A response changes nothing that a table read depends on. -/
@[simp] theorem memRead_respond (i : Index) (r : Response) (s : State) : memRead i (respond r s) = memRead i s :=
  memRead_congr i rfl rfl

/-- From a state of the invariant READ_TABLE ends in a response and no other change. -/
theorem exec_readTable_responds (idx : Index) {s : State} (hs : s.Inv) :
    ∃ response, exec (.readTable idx) s = .next (respond response s) := by
  cases hb : s.TABLE_BUILT with
  | false => exact ⟨_, exec_readTable_of_not_built idx hb⟩
  | true => exact ⟨_, exec_readTable_of_holds idx hb (hs.holds hb)⟩

/-- Settles O10: in a built table of the invariant the value found is `TableEntry` of the index. -/
theorem memReadFaultsOrFindsTheValue : Obligations.MemReadFaultsOrFindsTheValue := by
  unfold Obligations.MemReadFaultsOrFindsTheValue
  intro s i hs
  refine ⟨memRead_of_not_built i, fun hb => ?found, ?again⟩
  case found =>
    have hget : Table.get s.TABLE i.toNat = some (tableEntry i) := hs.holds hb i
    exact ⟨tableEntry i, hget, memRead_of_get hb hget⟩
  case again =>
    obtain ⟨response, hexec⟩ := exec_readTable_responds i hs
    exact ⟨_, hexec, respond_TABLE _ _, respond_TABLE_BUILT _ _, memRead_respond _ _ _⟩

/-- Settles O11: a write is one `Table.set`, at an index of the space. -/
theorem memWriteSetsOneEntry : Obligations.MemWriteSetsOneEntry := by
  unfold Obligations.MemWriteSetsOneEntry
  intro s i v
  refine ⟨?same, fun j hj => ?other, memWrite_wf i v s, memWrite_TABLE_BUILT _ _ _, memWrite_pending _ _ _,
    memWrite_responses _ _ _⟩
  case same => exact Table.get_set_same s.TABLE i.toNat v
  case other => exact Table.get_set_other s.TABLE v hj

end Sys2Proof.Machine
end

section
/-! A command word as its two fields, the decoder as one equation per operation code, and the statements of
30_encoding.md about decoding and encoding. -/

namespace Sys2Proof.Machine

/-! ## The fields of a word (R45 to R47) -/

/-- A word put together from parts gives back each of them. -/
theorem append_eq_append_iff {m n : Nat} {x x' : BitVec m} {y y' : BitVec n} :
    x ++ y = x' ++ y' ↔ x = x' ∧ y = y' := by
  constructor
  · intro h
    have hhi := congrArg (BitVec.extractLsb' n m) h
    have hlo := congrArg (BitVec.extractLsb' 0 n) h
    rw [BitVec.extractLsb'_append_eq_left, BitVec.extractLsb'_append_eq_left] at hhi
    rw [BitVec.extractLsb'_append_eq_right, BitVec.extractLsb'_append_eq_right] at hlo
    exact ⟨hhi, hlo⟩
  · rintro ⟨rfl, rfl⟩
    rfl

/-- A word is `op` above `arg`. -/
theorem opField_append_argField (w : Command) : opField w ++ argField w = w :=
  BitVec.extractLsb'_append_extractLsb' (w := 8) (len := 24)

/-- `arg` is `arg[23:8]` above `arg[7:0]`. -/
theorem argUpper_append_argIndex (w : Command) : argUpper w ++ argIndex w = argField w :=
  BitVec.extractLsb'_append_extractLsb'_eq_extractLsb' rfl

theorem argField_eq_append_iff (w : Command) (upper : BitVec 16) (idx : Index) :
    argField w = upper ++ idx ↔ argUpper w = upper ∧ argIndex w = idx := by
  rw [← argUpper_append_argIndex, append_eq_append_iff]

/-- A word is a command's own word exactly when its fields are the command's. -/
theorem encode_eq_iff (i : Instr) (w : Command) :
    encode i = w ↔ opField w = opCode i.mnemonic ∧ argField w = argOf i := by
  constructor
  · rintro rfl
    exact ⟨Laws.Fields.opField_append _ _, Laws.Fields.argField_append _ _⟩
  · rintro ⟨hop, harg⟩
    rw [encode, ← hop, ← harg, opField_append_argField]

/-- The operation codes in use, and those that are not (R48, R51). -/
theorem opField_cases (w : Command) :
    opField w = 0x00#8 ∨ opField w = 0x01#8 ∨ opField w = 0x02#8 ∨ opField w = 0x03#8 ∨ opField w = 0x04#8 ∨
      5 ≤ (opField w).toNat := by
  bv_omega

/-! ## The decoder, by operation code (R50) -/

theorem decode_of_op_zero {w : Command} (h : opField w = 0x00#8) : decode w = .error .opZero := by
  simp [decode, illegalClass, h]

theorem decode_of_op_one {w : Command} (h : opField w = 0x01#8) :
    decode w = if argField w = 0#24 then .ok .buildTable else .error .buildOperandNotZero := by
  simp [decode, illegalClass, h]

theorem decode_of_op_two {w : Command} (h : opField w = 0x02#8) : decode w = .ok (.verifyTable (argField w)) := by
  simp [decode, h]

theorem decode_of_op_three {w : Command} (h : opField w = 0x03#8) :
    decode w = .ok (.verifyDirect (argField w)) := by
  simp [decode, h]

theorem decode_of_op_four {w : Command} (h : opField w = 0x04#8) :
    decode w = if argUpper w = 0#16 then .ok (.readTable (argIndex w)) else .error .readUpperNotZero := by
  simp [decode, illegalClass, h]

theorem decode_of_op_unused {w : Command} (h : 5 ≤ (opField w).toNat) : decode w = .error .opUnused := by
  have hne (op : BitVec 8) (hop : op.toNat < 5) : opField w ≠ op := by
    rintro rfl
    omega
  simp [decode, illegalClass, hne]

/-! ## Decode and encode (R46 to R48, R50) -/

theorem decode_encode (i : Instr) : decode (encode i) = .ok i := by
  obtain ⟨hop, harg⟩ := (encode_eq_iff i _).mp rfl
  cases i with
  | buildTable => exact (decode_of_op_one hop).trans (if_pos harg)
  | verifyTable frame => rw [decode_of_op_two hop, harg, argOf]
  | verifyDirect frame => rw [decode_of_op_three hop, harg, argOf]
  | readTable idx =>
    obtain ⟨hupper, hidx⟩ := (argField_eq_append_iff _ _ _).mp harg
    rw [decode_of_op_four hop, if_pos hupper, hidx]

theorem encode_of_decode {w : Command} {i : Instr} (h : decode w = .ok i) : encode i = w := by
  rw [encode_eq_iff]
  obtain hop | hop | hop | hop | hop | hop := opField_cases w
  · simp [decode_of_op_zero hop] at h
  · rw [decode_of_op_one hop] at h
    split at h
    next harg => exact Except.ok.inj h ▸ ⟨hop, harg⟩
    next => cases h
  · rw [decode_of_op_two hop] at h
    exact Except.ok.inj h ▸ ⟨hop, rfl⟩
  · rw [decode_of_op_three hop] at h
    exact Except.ok.inj h ▸ ⟨hop, rfl⟩
  · rw [decode_of_op_four hop] at h
    split at h
    next hupper => exact Except.ok.inj h ▸ ⟨hop, (argField_eq_append_iff _ _ _).mpr ⟨hupper, rfl⟩⟩
    next => cases h
  · simp [decode_of_op_unused hop] at h

/-- A word decodes to a command exactly when its fields are the command's. -/
theorem decode_eq_ok_iff (w : Command) (i : Instr) :
    decode w = .ok i ↔ opField w = opCode i.mnemonic ∧ argField w = argOf i := by
  rw [← encode_eq_iff]
  exact ⟨encode_of_decode, fun h => h ▸ decode_encode i⟩

/-! ## The opcode table (R48) -/

/-- A mask that keeps `op` whole, and what it keeps of `arg` to be zero. -/
theorem and_mask_eq_iff (w : Command) (op : BitVec 8) (m : BitVec 24) :
    w &&& (0xFF#8 ++ m) = op ++ 0#24 ↔ opField w = op ∧ argField w &&& m = 0#24 := by
  have hop : opField w &&& 0xFF#8 = opField w := BitVec.and_allOnes
  conv_lhs => rw [← opField_append_argField w, BitVec.and_append, append_eq_append_iff, hop]

/-- The mask of the two verifications keeps `op` alone. -/
theorem and_opMask_eq_iff (w : Command) (op : BitVec 8) :
    w &&& 0xFF000000#32 = op ++ 0#24 ↔ opField w = op := by
  have hmask := and_mask_eq_iff w op 0#24
  rwa [BitVec.and_zero, eq_self, and_true] at hmask

/-- The mask of READ_TABLE keeps `arg[23:8]`. -/
theorem argField_and_upperMask_eq_zero_iff (w : Command) :
    argField w &&& (0xFFFF#16 ++ 0#8) = 0#24 ↔ argUpper w = 0#16 := by
  have hupper : argUpper w &&& 0xFFFF#16 = argUpper w := BitVec.and_allOnes
  have hzero : 0#24 = 0#16 ++ 0#8 := rfl
  rw [← argUpper_append_argIndex, BitVec.and_append, hzero, append_eq_append_iff, hupper, BitVec.and_zero]
  simp

theorem decode_eq_buildTable_iff (w : Command) :
    decode w = .ok .buildTable ↔ w &&& 0xFFFFFFFF#32 = 0x01000000#32 := by
  have harg : argField w &&& 0xFFFFFF#24 = argField w := BitVec.and_allOnes
  have hmask := and_mask_eq_iff w 0x01#8 0xFFFFFF#24
  rw [harg] at hmask
  exact (decode_eq_ok_iff w .buildTable).trans hmask.symm

theorem decode_eq_verifyTable_iff (w : Command) (f : Frame) :
    decode w = .ok (.verifyTable f) ↔ w &&& 0xFF000000#32 = 0x02000000#32 ∧ f = argField w :=
  (decode_eq_ok_iff w _).trans (and_congr (and_opMask_eq_iff w 0x02#8).symm eq_comm)

theorem decode_eq_verifyDirect_iff (w : Command) (f : Frame) :
    decode w = .ok (.verifyDirect f) ↔ w &&& 0xFF000000#32 = 0x03000000#32 ∧ f = argField w :=
  (decode_eq_ok_iff w _).trans (and_congr (and_opMask_eq_iff w 0x03#8).symm eq_comm)

theorem decode_eq_readTable_iff (w : Command) (i : Index) :
    decode w = .ok (.readTable i) ↔ w &&& 0xFFFFFF00#32 = 0x04000000#32 ∧ i = argIndex w := by
  have hmask := and_mask_eq_iff w 0x04#8 (0xFFFF#16 ++ 0#8)
  rw [argField_and_upperMask_eq_zero_iff] at hmask
  rw [decode_eq_ok_iff, argOf, argField_eq_append_iff, ← and_assoc, eq_comm (a := argIndex w)]
  exact and_congr_left' hmask.symm

/-- What a word decodes to is one of the four commands. -/
theorem exists_decode_eq_ok_iff (w : Command) :
    (∃ i, decode w = .ok i) ↔ decode w = .ok .buildTable ∨ (∃ f, decode w = .ok (.verifyTable f)) ∨
      (∃ f, decode w = .ok (.verifyDirect f)) ∨ ∃ idx, decode w = .ok (.readTable idx) := by
  constructor
  · rintro ⟨i, hd⟩
    cases i with
    | buildTable => exact .inl hd
    | verifyTable f => exact .inr (.inl ⟨f, hd⟩)
    | verifyDirect f => exact .inr (.inr (.inl ⟨f, hd⟩))
    | readTable idx => exact .inr (.inr (.inr ⟨idx, hd⟩))
  · rintro (hd | ⟨_, hd⟩ | ⟨_, hd⟩ | ⟨_, hd⟩)
    all_goals exact ⟨_, hd⟩

/-- A word selects a row exactly when it decodes to a command. -/
theorem wordWellFormed_iff (w : Command) : wordWellFormed w = true ↔ ∃ i, decode w = .ok i := by
  simp only [exists_decode_eq_ok_iff, decode_eq_buildTable_iff, decode_eq_verifyTable_iff,
    decode_eq_verifyDirect_iff, decode_eq_readTable_iff, exists_and_left, exists_eq, and_true]
  simp [wordWellFormed, opcodeTable, OpcodeRow.selects]

/-- Every row's mask keeps `op` whole, and its match has the row's operation code there and no other bit set. -/
theorem row_mask_pattern {r : OpcodeRow} (hr : r ∈ opcodeTable) :
    ∃ m : BitVec 24, r.mask = 0xFF#8 ++ m ∧ r.pattern = opCode r.name ++ 0#24 := by
  simp only [opcodeTable, List.mem_cons, List.not_mem_nil, or_false] at hr
  obtain rfl | rfl | rfl | rfl := hr
  · exact ⟨0xFFFFFF#24, rfl, rfl⟩
  · exact ⟨0x000000#24, rfl, rfl⟩
  · exact ⟨0x000000#24, rfl, rfl⟩
  · exact ⟨0xFFFF00#24, rfl, rfl⟩

theorem opCode_of_selects {r : OpcodeRow} (hr : r ∈ opcodeTable) {w : Command} (h : r.selects w = true) :
    opCode r.name = opField w := by
  obtain ⟨m, hmask, hpattern⟩ := row_mask_pattern hr
  rw [OpcodeRow.selects, hmask, hpattern, beq_iff_eq, and_mask_eq_iff] at h
  exact h.1.symm

/-- The rows are disjoint, since their operation codes differ. -/
theorem rowsOf_length_le_one (w : Command) : (rowsOf w).length ≤ 1 := by
  have hnodup : (opcodeTable.map (opCode ·.name)).Nodup := by decide
  calc (rowsOf w).length
      = opcodeTable.countP (·.selects w) := List.countP_eq_length_filter.symm
    _ ≤ opcodeTable.countP (opCode ·.name == opField w) :=
        List.countP_mono_left fun r hr h => beq_iff_eq.mpr (opCode_of_selects hr h)
    _ = (opcodeTable.map (opCode ·.name)).count (opField w) := by
        rw [List.count, List.countP_map]
        rfl
    _ ≤ 1 := List.nodup_iff_count_le_one.mp hnodup _

/-- Settles O1: the decoder reads back the two fields that the encoder puts together. -/
theorem decodeOfEncodeIsTheCommand : Obligations.DecodeOfEncodeIsTheCommand := by
  unfold Obligations.DecodeOfEncodeIsTheCommand
  exact fun i _ => ⟨(wordWellFormed_iff _).mpr ⟨i, decode_encode i⟩, decode_encode i⟩

/-- Settles O2: the fields of a word that decodes are those of the command, by operation code. -/
theorem encodeOfDecodeIsTheWord : Obligations.EncodeOfDecodeIsTheWord := by
  unfold Obligations.EncodeOfDecodeIsTheWord
  exact fun _ _ => encode_of_decode

/-- Settles O3: each row's mask splits at the fields of the word. -/
theorem opcodeRowsSelectTheirCommands : Obligations.OpcodeRowsSelectTheirCommands := by
  unfold Obligations.OpcodeRowsSelectTheirCommands
  exact fun w => ⟨decode_eq_buildTable_iff w, decode_eq_verifyTable_iff w, decode_eq_verifyDirect_iff w,
    decode_eq_readTable_iff w, rowsOf_length_le_one w, wordWellFormed_iff w⟩

end Sys2Proof.Machine
end

section
/-! A command word as numbers, `op` and `arg`, and the statements of 30_encoding.md in those numbers. -/

namespace Sys2Proof.Machine

/-! ## The fields as numbers (R45 to R47) -/

theorem opField_toNat (w : Command) : (opField w).toNat = w.toNat / 2 ^ 24 := by
  rw [opField, BitVec.extractLsb'_toNat, Nat.shiftRight_eq_div_pow]
  omega

theorem argField_toNat (w : Command) : (argField w).toNat = w.toNat % 2 ^ 24 := by
  rw [argField, BitVec.extractLsb'_toNat, Nat.shiftRight_zero]

theorem argUpper_toNat (w : Command) : (argUpper w).toNat = w.toNat % 2 ^ 24 / 2 ^ 8 := by
  rw [argUpper, BitVec.extractLsb'_toNat, Nat.shiftRight_eq_div_pow]
  omega

theorem opField_eq_of_div {w : Command} {n : Nat} (h : w.toNat / 2 ^ 24 = n) : opField w = BitVec.ofNat 8 n := by
  rw [← h, ← opField_toNat, BitVec.ofNat_toNat, BitVec.setWidth_eq]

theorem argField_eq_ofNat (w : Command) : argField w = BitVec.ofNat 24 (w.toNat % 2 ^ 24) := by
  rw [← argField_toNat, BitVec.ofNat_toNat, BitVec.setWidth_eq]

theorem argIndex_eq_ofNat (w : Command) : argIndex w = BitVec.ofNat 8 (w.toNat % 2 ^ 24) := by
  apply BitVec.eq_of_toNat_eq
  rw [argIndex, BitVec.extractLsb'_toNat, Nat.shiftRight_zero, BitVec.toNat_ofNat]
  omega

theorem argField_eq_zero_iff (w : Command) : argField w = 0#24 ↔ w.toNat % 2 ^ 24 = 0 := by
  rw [← argField_toNat, BitVec.toNat_eq, BitVec.toNat_zero]

theorem argUpper_eq_zero_iff (w : Command) : argUpper w = 0#16 ↔ w.toNat % 2 ^ 24 / 2 ^ 8 = 0 := by
  rw [← argUpper_toNat, BitVec.toNat_eq, BitVec.toNat_zero]

/-! ## The illegal words (R51, R112) -/

/-- The condition by which R51 puts a word into each class of illegal words. -/
def inIllegalClass (w : Command) : Illegal → Prop
  | .opZero => w.toNat / 2 ^ 24 = 0x00
  | .opUnused => 0x05 ≤ w.toNat / 2 ^ 24
  | .buildOperandNotZero => w.toNat / 2 ^ 24 = 0x01 ∧ w.toNat % 2 ^ 24 ≠ 0
  | .readUpperNotZero => w.toNat / 2 ^ 24 = 0x04 ∧ w.toNat % 2 ^ 24 / 2 ^ 8 ≠ 0

theorem decode_of_inIllegalClass {w : Command} {e : Illegal} (h : inIllegalClass w e) : decode w = .error e := by
  cases e with
  | opZero => exact decode_of_op_zero (opField_eq_of_div h)
  | opUnused => exact decode_of_op_unused (by rwa [opField_toNat])
  | buildOperandNotZero =>
    obtain ⟨hop, harg⟩ := h
    rw [decode_of_op_one (opField_eq_of_div hop), if_neg (mt (argField_eq_zero_iff w).mp harg)]
  | readUpperNotZero =>
    obtain ⟨hop, hupper⟩ := h
    rw [decode_of_op_four (opField_eq_of_div hop), if_neg (mt (argUpper_eq_zero_iff w).mp hupper)]

theorem inIllegalClass_of_decode {w : Command} {e : Illegal} (h : decode w = .error e) : inIllegalClass w e := by
  have hnum (op : BitVec 8) (hop : opField w = op) : w.toNat / 2 ^ 24 = op.toNat := by rw [← opField_toNat, hop]
  obtain hop | hop | hop | hop | hop | hop := opField_cases w
  · rw [decode_of_op_zero hop] at h
    exact Except.error.inj h ▸ hnum _ hop
  · rw [decode_of_op_one hop] at h
    split at h
    next => cases h
    next harg => exact Except.error.inj h ▸ ⟨hnum _ hop, mt (argField_eq_zero_iff w).mpr harg⟩
  · simp [decode_of_op_two hop] at h
  · simp [decode_of_op_three hop] at h
  · rw [decode_of_op_four hop] at h
    split at h
    next => cases h
    next hupper => exact Except.error.inj h ▸ ⟨hnum _ hop, mt (argUpper_eq_zero_iff w).mpr hupper⟩
  · rw [decode_of_op_unused hop] at h
    exact Except.error.inj h ▸ (by rwa [inIllegalClass, ← opField_toNat])

theorem decode_eq_error_iff (w : Command) (e : Illegal) : decode w = .error e ↔ inIllegalClass w e :=
  ⟨inIllegalClass_of_decode, decode_of_inIllegalClass⟩

theorem runCommand_of_decode_error {w : Command} (h : ∃ e, decode w = .error e) (s : State) :
    runCommand w s = .next (s.answered 0x100#10) := by
  obtain ⟨e, hd⟩ := h
  rw [runCommand_of_illegal hd, takeFault_illegalCommand]

/-- A word outside R50's four tests is of one of R51's classes. -/
theorem exists_inIllegalClass {w : Command} (hbuild : ¬(w.toNat / 2 ^ 24 = 0x01 ∧ w.toNat % 2 ^ 24 = 0))
    (htable : w.toNat / 2 ^ 24 ≠ 0x02) (hdirect : w.toNat / 2 ^ 24 ≠ 0x03)
    (hread : ¬(w.toNat / 2 ^ 24 = 0x04 ∧ w.toNat % 2 ^ 24 / 2 ^ 8 = 0)) : ∃ e, inIllegalClass w e := by
  have hop : w.toNat / 2 ^ 24 = 0 ∨ w.toNat / 2 ^ 24 = 1 ∨ w.toNat / 2 ^ 24 = 4 ∨ 5 ≤ w.toNat / 2 ^ 24 := by omega
  obtain hop | hop | hop | hop := hop
  · exact ⟨.opZero, hop⟩
  · exact ⟨.buildOperandNotZero, hop, fun harg => hbuild ⟨hop, harg⟩⟩
  · exact ⟨.readUpperNotZero, hop, fun hupper => hread ⟨hop, hupper⟩⟩
  · exact ⟨.opUnused, hop⟩

/-- Settles O5: each class's condition is one case of the operation code, and R112's fault is taken for all of them. -/
theorem illegalWordsAnswerIllegalCommand : Obligations.IllegalWordsAnswerIllegalCommand := by
  unfold Obligations.IllegalWordsAnswerIllegalCommand
  exact fun w => ⟨decode_eq_error_iff w _, decode_eq_error_iff w _, decode_eq_error_iff w _, decode_eq_error_iff w _,
    runCommand_of_decode_error⟩

/-- Settles O4: the decoder's tests in the numbers of the fields. -/
theorem decodeFollowsOpAndArg : Obligations.DecodeFollowsOpAndArg := by
  unfold Obligations.DecodeFollowsOpAndArg
  intro w
  dsimp only
  refine ⟨?build, fun hop => ?table, fun hop => ?direct, ?read, ?illegal⟩
  case build =>
    rintro ⟨hop, harg⟩
    rw [decode_of_op_one (opField_eq_of_div hop), if_pos ((argField_eq_zero_iff w).mpr harg)]
  case table => rw [decode_of_op_two (opField_eq_of_div hop), argField_eq_ofNat]
  case direct => rw [decode_of_op_three (opField_eq_of_div hop), argField_eq_ofNat]
  case read =>
    rintro ⟨hop, hupper⟩
    rw [decode_of_op_four (opField_eq_of_div hop), if_pos ((argUpper_eq_zero_iff w).mpr hupper), argIndex_eq_ofNat]
  case illegal =>
    rintro ⟨hbuild, htable, hdirect, hread⟩
    obtain ⟨e, he⟩ := exists_inIllegalClass hbuild htable hdirect hread
    have hd : ∃ e, decode w = .error e := ⟨e, decode_of_inIllegalClass he⟩
    exact ⟨hd, runCommand_of_decode_error hd⟩

/-! ## The frame operand (R46) -/

/-- Command bit `n` is frame bit `n`. -/
theorem argField_getLsbD (w : Command) {n : Nat} (hn : n < 24) : (argField w).getLsbD n = w.getLsbD n := by
  rw [argField, BitVec.getLsbD_extractLsb', Nat.zero_add, decide_eq_true hn, Bool.true_and]

/-- Byte `k` of the frame operand is the byte of the word at the same place. -/
theorem frameByte_argField (w : Command) (k : BitVec 2) :
    frameByte (argField w) k = w.extractLsb' (16 - 8 * k.toNat) 8 :=
  BitVec.extractLsb'_extractLsb'_of_le (by omega)

/-- Settles O6: the frame is the word's low field. -/
theorem frameOperandIsTheLowBits : Obligations.FrameOperandIsTheLowBits := by
  unfold Obligations.FrameOperandIsTheLowBits
  intro w hop
  refine ⟨argField w, ?verification, fun _ => argField_getLsbD w, frameByte_argField w 0, frameByte_argField w 1,
    frameByte_argField w 2⟩
  case verification =>
    exact hop.imp (fun h => decode_of_op_two (opField_eq_of_div h)) fun h => decode_of_op_three (opField_eq_of_div h)

/-! ## Command words (R52) -/

/-- The number of a word put together from two parts. -/
theorem toNat_append_eq_add {m n : Nat} (x : BitVec m) (y : BitVec n) :
    (x ++ y).toNat = x.toNat * 2 ^ n + y.toNat := by
  rw [BitVec.toNat_append, ← Nat.shiftLeft_add_eq_or_of_lt y.isLt, Nat.shiftLeft_eq]

theorem encode_toNat (i : Instr) : (encode i).toNat = (opCode i.mnemonic).toNat * 2 ^ 24 + (argOf i).toNat :=
  toNat_append_eq_add _ _

theorem frame_toNat (b0 b1 b2 : BitVec 8) :
    (b0 ++ b1 ++ b2).toNat = b0.toNat * 65536 + b1.toNat * 256 + b2.toNat := by
  rw [toNat_append_eq_add, toNat_append_eq_add]
  omega

/-- Settles O7: the operation code at 2^24, the operand below it. -/
theorem commandWordsAreSums : Obligations.CommandWordsAreSums := by
  unfold Obligations.CommandWordsAreSums
  intro b0 b1 b2
  refine ⟨?table, ?direct, ?read, rfl⟩
  case table =>
    rw [encode_toNat, Instr.mnemonic, opCode, argOf, frame_toNat]
    bv_omega
  case direct =>
    rw [encode_toNat, Instr.mnemonic, opCode, argOf, frame_toNat]
    bv_omega
  case read =>
    rw [encode_toNat, Instr.mnemonic, opCode, argOf, toNat_append_eq_add]
    bv_omega

/-- Settles O8: four words are the encoder's own, and two are in their class by its condition. -/
theorem specWordsDecode : Obligations.SpecWordsDecode := by
  unfold Obligations.SpecWordsDecode
  refine ⟨?build, ?table, ?direct, ?read, ?readUpper, ?buildOperand⟩
  case build => exact decode_encode .buildTable
  case table => exact decode_encode (.verifyTable 0xFD42D9#24)
  case direct => exact decode_encode (.verifyDirect 0xFD42D9#24)
  case read => exact decode_encode (.readTable 0x69#8)
  case readUpper => exact decode_of_inIllegalClass (e := .readUpperNotZero) (by simp [inIllegalClass])
  case buildOperand => exact decode_of_inIllegalClass (e := .buildOperandNotZero) (by simp [inIllegalClass])

end Sys2Proof.Machine
end

section
/-! The line the model writes for a command, split into its tokens and read back (30_encoding.md rule R52;
notes/assumptions/8.md). -/

namespace Sys2Proof.Machine

/-! ## Tokens -/

/-- Characters that end no token and are none: no comment mark, no blank, no comma. -/
def plain (t : List Char) : Bool := t.all fun c => decide (c ≠ ';' ∧ c ≠ ' ' ∧ c ≠ ',')

theorem tokensFrom_append_of_plain {t : List Char} (h : plain t = true) (tok cs : List Char) :
    tokensFrom tok (t ++ cs) = tokensFrom (tok ++ t) cs := by
  induction t generalizing tok with
  | nil => simp
  | cons c t ih =>
    simp only [plain, List.all_cons, Bool.and_eq_true, decide_eq_true_eq] at h
    obtain ⟨⟨hcomment, hblank, hcomma⟩, ht⟩ := h
    rw [List.cons_append, tokensFrom, if_neg hcomment, if_neg hblank, if_neg hcomma, ih ht, List.append_assoc,
      List.singleton_append]

/-- A plain text at the end of a line is its last token. -/
theorem tokensFrom_of_plain {t : List Char} (h : plain t = true) (hne : t ≠ []) : tokensFrom [] t = [t] := by
  have happend := tokensFrom_append_of_plain h [] []
  rw [List.append_nil, List.nil_append] at happend
  simp [happend, tokensFrom, hne]

/-- A blank ends a plain text's token. -/
theorem tokensFrom_append_blank {t : List Char} (h : plain t = true) (hne : t ≠ []) (cs : List Char) :
    tokensFrom [] (t ++ ([' '] ++ cs)) = t :: tokensFrom [] cs := by
  rw [tokensFrom_append_of_plain h]
  simp [tokensFrom, hne]

/-- A comma ends a plain text's token and is the next; the blank after it is dropped. -/
theorem tokensFrom_append_comma {t : List Char} (h : plain t = true) (hne : t ≠ []) (cs : List Char) :
    tokensFrom [] (t ++ ([',', ' '] ++ cs)) = t :: [','] :: tokensFrom [] cs := by
  rw [tokensFrom_append_of_plain h]
  simp [tokensFrom, hne]

/-! ## Bytes and mnemonics -/

theorem readDigit_getD {n : Nat} (h : n < 16) : readDigit (hexDigits.getD n '0') = some n := by
  have hall : ∀ d : Fin 16, readDigit (hexDigits.getD d '0') = some d.val := by decide
  exact hall ⟨n, h⟩

/-- No hexadecimal digit ends a token. -/
theorem hexDigits_plain : plain hexDigits = true := by decide

theorem plain_getD {t : List Char} (h : plain t = true) (n : Nat) : plain [t.getD n '0'] = true := by
  by_cases hn : n < t.length
  · rw [List.getD_eq_getElem _ _ hn, plain, List.all_cons, List.all_nil, Bool.and_true]
    exact List.all_eq_true.mp h _ (List.getElem_mem hn)
  · rw [List.getD_eq_default _ _ (Nat.le_of_not_lt hn)]
    decide

theorem plain_append {t u : List Char} (ht : plain t = true) (hu : plain u = true) : plain (t ++ u) = true := by
  rw [plain, List.all_append, Bool.and_eq_true]
  exact ⟨ht, hu⟩

theorem byteText_plain (b : BitVec 8) : plain (byteText b) = true :=
  plain_append (t := ['0', 'x']) (by decide) (plain_append (plain_getD hexDigits_plain _) (plain_getD hexDigits_plain _))

theorem byteText_ne_nil (b : BitVec 8) : byteText b ≠ [] := List.cons_ne_nil _ _

theorem readByte_byteText (b : BitVec 8) : readByte (byteText b) = some b := by
  have hhi : b.toNat / 16 < 16 := by omega
  have hlo : b.toNat % 16 < 16 := by omega
  have hvalue : 16 * (b.toNat / 16) + b.toNat % 16 = b.toNat := Nat.div_add_mod _ _
  simp only [byteText, readByte, readDigit_getD hhi, readDigit_getD hlo, Option.bind_some, Option.map_some, hvalue,
    BitVec.ofNat_toNat, BitVec.setWidth_eq]

theorem mnemonicText_plain (m : Mnemonic) : plain (mnemonicText m) = true := by
  cases m <;> decide

theorem mnemonicText_ne_nil (m : Mnemonic) : mnemonicText m ≠ [] := by
  cases m <;> decide

/-! ## Frames -/

/-- A frame is its three bytes, byte0 the most significant (R32). -/
theorem frameOf_frameByte (f : Frame) : frameOf (frameByte f 0) (frameByte f 1) (frameByte f 2) = f := by
  have hhigh : frameByte f 0 ++ frameByte f 1 = f.extractLsb' 8 16 :=
    BitVec.extractLsb'_append_extractLsb'_eq_extractLsb' rfl
  rw [frameOf, hhigh]
  exact BitVec.extractLsb'_append_extractLsb' (w := 16) (len := 8)

/-- The five tokens of a frame: its bytes with a comma between them. -/
theorem tokensFrom_frameText (f : Frame) :
    tokensFrom [] (frameText f) =
      [byteText (frameByte f 0), [','], byteText (frameByte f 1), [','], byteText (frameByte f 2)] := by
  simp only [frameText, List.append_assoc]
  rw [tokensFrom_append_comma (byteText_plain _) (byteText_ne_nil _),
    tokensFrom_append_comma (byteText_plain _) (byteText_ne_nil _),
    tokensFrom_of_plain (byteText_plain _) (byteText_ne_nil _)]

theorem readFrame_byteText (f : Frame) :
    readFrame (byteText (frameByte f 0)) [','] (byteText (frameByte f 1)) [','] (byteText (frameByte f 2)) =
      some f := by
  simp only [readFrame, readByte_byteText, and_self, if_true, Option.bind_some, Option.map_some, frameOf_frameByte]

/-! ## Lines -/

/-- The tokens of a line with an operand: its mnemonic and the operand's. -/
theorem tokensFrom_mnemonicText (m : Mnemonic) (operand : List Char) :
    tokensFrom [] (mnemonicText m ++ [' '] ++ operand) = mnemonicText m :: tokensFrom [] operand := by
  rw [List.append_assoc, tokensFrom_append_blank (mnemonicText_plain m) (mnemonicText_ne_nil m)]

theorem readLine_lineText (i : Instr) : readLine (lineText i) = some i := by
  cases i with
  | buildTable => rfl
  | verifyTable f =>
    rw [readLine, lineText, tokensFrom_mnemonicText, tokensFrom_frameText, readTokens, readFrame_byteText]
    rfl
  | verifyDirect f =>
    rw [readLine, lineText, tokensFrom_mnemonicText, tokensFrom_frameText, readTokens, readFrame_byteText]
    rfl
  | readTable idx =>
    rw [readLine, lineText, tokensFrom_mnemonicText, tokensFrom_of_plain (byteText_plain idx) (byteText_ne_nil idx),
      readTokens, readByte_byteText]
    rfl

/-- A program of one line that holds a command is that command's word. -/
theorem assemble_singleton {line : List Char} {i : Instr} (h : readLine line = some i) :
    assemble [line] = some [encode i] := by
  have htokens : tokensFrom [] line ≠ [] := by
    intro hnil
    simp [readLine, hnil, readTokens] at h
  simp [assemble, htokens, h]

/-- Settles O9: the line's tokens are its mnemonic and its bytes, and each byte is read back. -/
theorem assemblerLineReadsBack : Obligations.AssemblerLineReadsBack := by
  unfold Obligations.AssemblerLineReadsBack
  exact fun i => ⟨readLine_lineText i, assemble_singleton (readLine_lineText i)⟩

end Sys2Proof.Machine
end

section
/-! The one response word that each command returns, and the statement of 30_encoding.md rule R49 about it. -/

namespace Sys2Proof.Machine

/-! ## The fields of a response word (R49) -/

/-- The data field of a response word is its data. -/
@[simp] theorem word_data (r : Response) : r.word.extractLsb' 0 8 = r.data := BitVec.extractLsb'_append_eq_right

/-- The three statuses: there is no status 3. -/
theorem status_cases (r : Response) : r.status = 0#2 ∨ r.status = 1#2 ∨ r.status = 2#2 := by
  cases r with
  | doneBuild => exact .inl rfl
  | doneVerify _ => exact .inl rfl
  | doneRead _ => exact .inl rfl
  | faulted c =>
    cases c with
    | illegalCommand => exact .inr (.inl rfl)
    | tableNotBuilt => exact .inr (.inr rfl)

/-- A fault carries no data. -/
theorem data_eq_zero_of_status_ne_zero {r : Response} (h : r.status ≠ 0#2) : r.data = 0x00#8 := by
  cases r with
  | doneBuild => rfl
  | doneVerify _ => exact absurd rfl h
  | doneRead _ => exact absurd rfl h
  | faulted _ => rfl

theorem word_doneVerify (valid : Bool) :
    (Response.doneVerify valid).word = 0x001#10 ∨ (Response.doneVerify valid).word = 0x000#10 := by
  cases valid with
  | true => exact .inl rfl
  | false => exact .inr rfl

/-- The table path's verdict is that of its residual (R73). -/
theorem word_doneVerify_registerIsZero (r : Entry) : (Response.doneVerify (registerIsZero r)).word = verdictWord r := by
  by_cases h : r = 0#6
  · rw [registerIsZero, verdictWord, if_pos h, beq_iff_eq.mpr h]
    rfl
  · rw [registerIsZero, verdictWord, if_neg h, beq_eq_false_iff_ne.mpr h]
    rfl

/-- The two paths make the same test: `c[0..5]` are all false exactly when the number they hold is zero (R82, R86). -/
theorem vectorIsZero_eq_registerIsZero (cv : Vector Bool 7) : vectorIsZero cv = registerIsZero (num cv) := by
  unfold vectorIsZero registerIsZero num
  generalize cv[0] = c0
  generalize cv[1] = c1
  generalize cv[2] = c2
  generalize cv[3] = c3
  generalize cv[4] = c4
  generalize cv[5] = c5
  revert c0 c1 c2 c3 c4 c5
  decide

/-! ## Which fault a table read can raise (R111) -/

/-- `TableNotBuilt` is the only fault that `r` can raise. -/
def RaisesOnlyTableNotBuilt {α : Type} (r : Except Stop α) : Prop :=
  ∀ c, r = .error (.raised c) → c = .tableNotBuilt

theorem RaisesOnlyTableNotBuilt.ok {α : Type} (a : α) : RaisesOnlyTableNotBuilt (.ok a) := fun _ h => nomatch h

theorem RaisesOnlyTableNotBuilt.bind {α β : Type} {r : Except Stop α} {f : α → Except Stop β}
    (hr : RaisesOnlyTableNotBuilt r) (hf : ∀ a, RaisesOnlyTableNotBuilt (f a)) :
    RaisesOnlyTableNotBuilt (r.bind f) := by
  cases r with
  | ok a => exact hf a
  | error e => exact fun c h => hr c (congrArg _ (Except.error.inj h))

theorem RaisesOnlyTableNotBuilt.map {α β : Type} {r : Except Stop α} (hr : RaisesOnlyTableNotBuilt r) (f : α → β) :
    RaisesOnlyTableNotBuilt (r.map f) := by
  cases r with
  | ok a => exact .ok (f a)
  | error e => exact fun c h => hr c (congrArg _ (Except.error.inj h))

theorem requireBuilt_raises (s : State) : RaisesOnlyTableNotBuilt (requireBuilt s) := by
  unfold requireBuilt
  split
  · exact .ok ()
  · rintro c ⟨⟩
    rfl

theorem memRead_raises (i : Index) (s : State) : RaisesOnlyTableNotBuilt (memRead i s) := by
  cases hb : s.TABLE_BUILT with
  | false =>
    rw [memRead_of_not_built i hb]
    rintro c ⟨⟩
    rfl
  | true =>
    cases hv : Table.get s.TABLE i.toNat with
    | none =>
      rw [memRead_of_get_none hb hv]
      exact fun _ h => nomatch h
    | some v =>
      rw [memRead_of_get hb hv]
      exact .ok v

theorem foldByte_raises (s : State) (g : Config.FoldRegs) (k : Nat) : RaisesOnlyTableNotBuilt (foldByte s g k) :=
  (memRead_raises _ s).map _

theorem foldlM_foldByte_raises (s : State) (ks : List Nat) (g : Config.FoldRegs) :
    RaisesOnlyTableNotBuilt (ks.foldlM (foldByte s) g) := by
  induction ks generalizing g with
  | nil => exact .ok g
  | cons k ks ih => exact (foldByte_raises s g k).bind ih

theorem foldRun_raises (g : Config.FoldRegs) (f : Frame) (s : State) : RaisesOnlyTableNotBuilt (foldRun g f s) :=
  (requireBuilt_raises s).bind fun _ => foldlM_foldByte_raises s _ _

/-! ## What each command responds -/

/-- A command word that ends in a next state has appended one response. -/
theorem runCommand_appends {w : Command} {s t : State} (h : runCommand w s = .next t) :
    ∃ response : Response, t.responses = s.responses ++ [response.word] := by
  obtain ⟨response, rfl⟩ | ⟨-, g, rfl⟩ := runCommand_next h
  · exact ⟨response, rfl⟩
  · exact ⟨.doneBuild, by rw [builderRun_eq]; rfl⟩

/-- VERIFY_TABLE gives a verdict or raises TableNotBuilt, whatever the table holds. -/
theorem exec_verifyTable_next {f : Frame} {s t : State} (h : exec (.verifyTable f) s = .next t) :
    ∃ response : Response, t = respond response s ∧
      ((∃ valid, response = .doneVerify valid) ∨ response = .faulted .tableNotBuilt) := by
  rw [exec_eq_finish, effectOf, answerOf] at h
  match hrun : foldRun default f s with
  | .ok g =>
    rw [hrun] at h
    exact ⟨_, (Host.Outcome.next.inj h).symm, .inl ⟨_, rfl⟩⟩
  | .error (.raised c) =>
    rw [hrun] at h
    obtain rfl := foldRun_raises _ _ _ c hrun
    exact ⟨_, (Host.Outcome.next.inj h).symm, .inr rfl⟩
  | .error (.noValue i) =>
    rw [hrun] at h
    cases h

/-- With the table built READ_TABLE gives what the entry holds. -/
theorem exec_readTable_next {idx : Index} {s t : State} (hb : s.TABLE_BUILT = true)
    (h : exec (.readTable idx) s = .next t) :
    ∃ v, Table.get s.TABLE idx.toNat = some v ∧ t = respond (.doneRead v) s := by
  rw [exec_eq_finish, effectOf, answerOf] at h
  match hv : Table.get s.TABLE idx.toNat with
  | some v =>
    rw [memRead_of_get hb hv] at h
    exact ⟨v, rfl, (Host.Outcome.next.inj h).symm⟩
  | none =>
    rw [memRead_of_get_none hb hv] at h
    cases h

/-- The response list determines the response word. -/
theorem word_eq_of_responses {s t : State} {r r' : ResponseWord} (hr : t.responses = s.responses ++ [r])
    (hr' : t.responses = s.responses ++ [r']) : r = r' :=
  List.singleton_injective (List.append_cancel_left (hr.symm.trans hr'))

/-- Settles O43: one response is appended, and for each command it is the one its meaning gives. -/
theorem everyCommandReturnsOneWord : Obligations.EveryCommandReturnsOneWord := by
  unfold Obligations.EveryCommandReturnsOneWord
  intro s t w h
  obtain ⟨response, hresponse⟩ := runCommand_appends h
  have hexec {i : Instr} (hd : decode w = .ok i) : exec i s = .next t := (runCommand_of_decode hd s).symm.trans h
  have hword {i : Instr} {answer : Response} {u : State} (hd : decode w = .ok i) (hu : exec i s = .next u)
      (hanswer : u.responses = s.responses ++ [answer.word]) : response.word = answer.word := by
    obtain rfl := Host.Outcome.next.inj ((hexec hd).symm.trans hu)
    exact word_eq_of_responses hresponse hanswer
  refine ⟨response.word, hresponse, responseWordOccurs_word response, ?status, ?data, fun hd => ?build,
    fun f hd => ?verify, fun f hd => ?direct, fun f hd hs hb => ?table, fun i hd hb => ?read⟩
  case status => exact (word_status response).symm ▸ status_cases response
  case data =>
    rw [word_status, word_data]
    exact data_eq_zero_of_status_ne_zero
  case build => exact hword hd (exec_buildTable s) rfl
  case verify =>
    obtain hd | hd := hd
    · obtain ⟨answer, ht, ⟨valid, rfl⟩ | rfl⟩ := exec_verifyTable_next (hexec hd)
      · rw [word_eq_of_responses hresponse (congrArg State.responses ht)]
        exact (word_doneVerify valid).imp_right .inl
      · exact .inr (.inr (word_eq_of_responses hresponse (congrArg State.responses ht)))
    · rw [hword hd (exec_verifyDirect f s) rfl]
      exact (word_doneVerify _).imp_right .inl
  case direct =>
    rw [hword hd (exec_verifyDirect f s) rfl, vectorIsZero_eq_registerIsZero, word_doneVerify_registerIsZero]
  case table =>
    rw [hword hd (exec_verifyTable_of_holds f hb (hs.holds hb)) rfl, word_doneVerify_registerIsZero]
  case read =>
    obtain ⟨v, hv, ht⟩ := exec_readTable_next hb (hexec hd)
    exact ⟨v, hv, (word_eq_of_responses hresponse (congrArg State.responses ht)).trans (word_doneRead v)⟩

end Sys2Proof.Machine
end

section
/-! The division step, the working value and the table entry in numbers, the 8-bit lane the working value keeps to, and the
statements of 40_table_builder.md rules R60 to R62 and R66. -/

namespace Sys2Proof.Machine

/-! ## The division step in numbers (R60) -/

/-- The tested bit as a number. -/
theorem getElem_seven_eq_true_iff (w : BitVec 16) : w[7] = true ↔ w.toNat / 2 ^ 7 % 2 = 1 := by
  rw [BitVec.getElem_eq_testBit_toNat, Nat.testBit_eq_decide_div_mod_eq, decide_eq_true_iff]

theorem shiftLeft_one_toNat {n : Nat} (w : BitVec n) : (w <<< 1).toNat = 2 * w.toNat % 2 ^ n := by
  rw [BitVec.toNat_shiftLeft, Nat.shiftLeft_eq, pow_one, Nat.mul_comm]

/-- The shifted polynomial, `4*p`: it fits the working register. -/
theorem shiftLeft_POLY_SHIFT_toNat (p : BitVec 7) : (p.setWidth 16 <<< Config.POLY_SHIFT).toNat = 4 * p.toNat := by
  rw [BitVec.toNat_shiftLeft, Nat.shiftLeft_eq, BitVec.toNat_setWidth, Config.POLY_SHIFT]
  omega

theorem divStep_toNat (w : BitVec 16) (p : BitVec 7) : (divStep w p).toNat =
    if w.toNat / 2 ^ 7 % 2 = 1 then ((2 * w.toNat) ^^^ (4 * p.toNat)) % 2 ^ 16 else (2 * w.toNat) % 2 ^ 16 := by
  have hp : 4 * p.toNat < 2 ^ 16 := by omega
  simp only [divStep, getElem_seven_eq_true_iff, apply_ite BitVec.toNat, BitVec.toNat_xor, shiftLeft_one_toNat,
    shiftLeft_POLY_SHIFT_toNat, Nat.xor_mod_two_pow, Nat.mod_eq_of_lt hp]

/-- Settles O13: the shifts as multiplications, and the bit test as a division. -/
theorem divStepShiftsThenXors : Obligations.DivStepShiftsThenXors := by
  unfold Obligations.DivStepShiftsThenXors
  exact ⟨divStep_toNat, rfl⟩

/-! ## The working value and the entry (R61) -/

/-- The working value is the division step iterated. -/
theorem workingValue_eq_iterate (i : Index) (n : Nat) :
    workingValue i n = (fun w => divStep w Config.POLY)^[n] (i.setWidth 16) := by
  induction n with
  | zero => rfl
  | succ n ih => rw [Function.iterate_succ_apply', ← ih, workingValue]

theorem entryOf_toNat (w : BitVec 16) : (entryOf w).toNat = w.toNat / 2 ^ 2 % 2 ^ 6 := by
  rw [entryOf, BitVec.extractLsb'_toNat, Nat.shiftRight_eq_div_pow, Config.POLY_SHIFT]

/-- Settles O14: the working value is the iterated step, and the entry its bits [7:2]. -/
theorem tableEntryIsEightDivSteps : Obligations.TableEntryIsEightDivSteps := by
  unfold Obligations.TableEntryIsEightDivSteps
  intro i
  rw [tableEntry, entryOf_toNat, workingValue_eq_iterate, BitVec.ofNat_toNat]
  rfl

/-! ## The 8-bit lane (R62)

Within the lane a division step shifts a byte whose top bit, when set, is cancelled by that of the shifted polynomial. So
`divStepIn 8`, the step in a register as wide as the lane, is the step in every wider register. -/

theorem divStep_POLY_eq_divStepIn (w : BitVec 16) : divStep w Config.POLY = divStepIn 16 w := rfl

/-- The value a division step with POLY is working out, before the register cuts it off. -/
theorem divStepIn_toNat {n : Nat} (w : BitVec n) :
    (divStepIn n w).toNat = ((2 * w.toNat) ^^^ (if w.getLsbD 7 then 0x019C else 0)) % 2 ^ n := by
  unfold divStepIn
  split
  · rw [BitVec.toNat_xor, shiftLeft_one_toNat, BitVec.toNat_ofNat, Nat.xor_mod_two_pow]
  · rw [shiftLeft_one_toNat, Nat.xor_zero]

/-- No step leaves the lane: a top bit shifted out of it is cancelled by the polynomial's. -/
theorem lane_step_lt (x : BitVec 8) : (2 * x.toNat) ^^^ (if x.getLsbD 7 then 0x019C else 0) < 2 ^ 8 := by
  revert x
  decide

/-- On a byte the step in any register that holds one loses no bit. -/
theorem divStepIn_setWidth_toNat {n : Nat} (hn : 8 ≤ n) (x : BitVec 8) :
    (divStepIn n (x.setWidth n)).toNat = (2 * x.toNat) ^^^ (if x.getLsbD 7 then 0x019C else 0) := by
  have h7 : (x.setWidth n).getLsbD 7 = x.getLsbD 7 := by
    rw [BitVec.getLsbD_setWidth, decide_eq_true (by omega), Bool.true_and]
  rw [divStepIn_toNat, BitVec.toNat_setWidth_of_le hn, h7]
  exact Nat.mod_eq_of_lt ((lane_step_lt x).trans_le (Nat.pow_le_pow_right (by decide) hn))

theorem divStepIn_setWidth {n : Nat} (hn : 8 ≤ n) (x : BitVec 8) :
    divStepIn n (x.setWidth n) = (divStepIn 8 x).setWidth n := by
  apply BitVec.eq_of_toNat_eq
  have hlane := divStepIn_setWidth_toNat (le_refl 8) x
  rw [BitVec.setWidth_eq] at hlane
  rw [divStepIn_setWidth_toNat hn, BitVec.toNat_setWidth_of_le hn, hlane]

theorem divStepIn_iterate_setWidth {n : Nat} (hn : 8 ≤ n) (x : BitVec 8) (k : Nat) :
    (divStepIn n)^[k] (x.setWidth n) = ((divStepIn 8)^[k] x).setWidth n := by
  induction k with
  | zero => rfl
  | succ k ih => rw [Function.iterate_succ_apply', ih, divStepIn_setWidth hn, Function.iterate_succ_apply']

theorem workingValue_eq_lane (i : Index) (n : Nat) : workingValue i n = ((divStepIn 8)^[n] i).setWidth 16 := by
  rw [workingValue_eq_iterate]
  exact divStepIn_iterate_setWidth (by decide) i n

theorem workingValue_le (i : Index) (n : Nat) : (workingValue i n).toNat ≤ 0x00FF := by
  rw [workingValue_eq_lane, BitVec.toNat_setWidth_of_le (by decide)]
  exact Nat.le_of_lt_succ (BitVec.isLt _)

/-- Bits [7:2] of a byte in a register that holds it. -/
theorem extractLsb'_setWidth_lane {n : Nat} (hn : 8 ≤ n) (x : BitVec 8) :
    (x.setWidth n).extractLsb' 2 6 = x.extractLsb' 2 6 := by
  apply BitVec.eq_of_toNat_eq
  rw [BitVec.extractLsb'_toNat, BitVec.extractLsb'_toNat, BitVec.toNat_setWidth_of_le hn]

theorem tableEntry_eq_lane (i : Index) : tableEntry i = ((divStepIn 8)^[8] i).extractLsb' 2 6 := by
  rw [tableEntry, entryOf, workingValue_eq_lane]
  exact extractLsb'_setWidth_lane (by decide) _

/-- A byte held in the working register. -/
theorem exists_eq_setWidth_of_le {w : BitVec 16} (h : w.toNat ≤ 0x00FF) : ∃ x : BitVec 8, w = x.setWidth 16 := by
  refine ⟨w.setWidth 8, BitVec.eq_of_toNat_eq ?_⟩
  rw [BitVec.toNat_setWidth, BitVec.toNat_setWidth]
  omega

/-! ## The lane and the single-bit register step (R66, R99) -/

/-- The lane's shift of a register value in bits [7:2] is the register's own. -/
theorem append_zero_shiftLeft_one (r : Entry) : (r ++ 0#2) <<< 1 = (r <<< 1) ++ 0#2 := by
  apply BitVec.eq_of_toNat_eq
  rw [shiftLeft_one_toNat, toNat_append_eq_add, toNat_append_eq_add, shiftLeft_one_toNat, BitVec.toNat_zero]
  omega

/-- Within the lane the shifted polynomial is `POLY[5:0]` in bits [7:2]. -/
theorem lane_POLY_eq : BitVec.ofNat 8 0x019C = Config.POLY.setWidth 6 ++ 0#2 := rfl

/-- With a register value in bits [7:2] and a byte added, one division step is one single-bit step on the byte's top bit,
and moves the byte's next bit up. -/
theorem divStepIn_lane_eq_ser (r : Entry) (b : BitVec 8) :
    divStepIn 8 ((r ++ 0#2) ^^^ b) = (ser r (b.getLsbD 7) ++ 0#2) ^^^ (b <<< 1) := by
  have htop : ((r ++ 0#2) ^^^ b).getLsbD 7 = (r[5] ^^ b.getLsbD 7) := by
    rw [BitVec.getLsbD_xor, BitVec.getLsbD_append]
    rfl
  rw [divStepIn, ser, htop, BitVec.shiftLeft_xor_distrib, append_zero_shiftLeft_one]
  split
  · rw [lane_POLY_eq, BitVec.xor_assoc, BitVec.xor_comm (b <<< 1), ← BitVec.xor_assoc, BitVec.xor_append,
      BitVec.xor_zero]
  · rfl

/-- `n` steps consume the `n` bits at the top of the lane, the most significant first. -/
theorem divStepIn_iterate_eq_serN (r : Entry) (b : BitVec 8) {n : Nat} (hn : n ≤ 8) :
    (divStepIn 8)^[n] ((r ++ 0#2) ^^^ (b <<< (8 - n))) = serN r b n ++ 0#2 := by
  induction n generalizing r with
  | zero => rw [Function.iterate_zero_apply, BitVec.shiftLeft_eq_zero (by decide), BitVec.xor_zero, serN]
  | succ n ih =>
    have hbit : (b <<< (8 - (n + 1))).getLsbD 7 = b.getLsbD n := by
      have hlow : ¬ 7 < 8 - (n + 1) := by omega
      have hplace : 7 - (8 - (n + 1)) = n := by omega
      rw [BitVec.getLsbD_shiftLeft, hplace, decide_eq_false hlow]
      rfl
    have hshift : b <<< (8 - (n + 1)) <<< 1 = b <<< (8 - n) := by
      rw [← BitVec.shiftLeft_add]
      congr 1
      omega
    rw [Function.iterate_succ_apply, divStepIn_lane_eq_ser, hbit, hshift, ih _ (by omega), serN]

theorem lane_eight_eq_serN (r : Entry) (b : BitVec 8) :
    (divStepIn 8)^[8] ((r ++ 0#2) ^^^ b) = serN r b 8 ++ 0#2 := by
  simpa only [Nat.sub_self, BitVec.shiftLeft_zero] using divStepIn_iterate_eq_serN r b (le_refl 8)

theorem tableEntry_eq_serN (r : Entry) (b : BitVec 8) : tableEntry ((r ++ 0#2) ^^^ b) = serN r b 8 := by
  rw [tableEntry_eq_lane, lane_eight_eq_serN]
  exact BitVec.extractLsb'_append_eq_left

/-- Settles O19: within the lane eight division steps are the eight single-bit steps. -/
theorem entryIsEightSingleBitSteps : Obligations.EntryIsEightSingleBitSteps := by
  unfold Obligations.EntryIsEightSingleBitSteps
  exact tableEntry_eq_serN

/-- The eight steps of an index end with the two low bits zero. -/
theorem workingValue_eight_mod_four (i : Index) : (workingValue i 8).toNat % 4 = 0 := by
  have hlane : (divStepIn 8)^[8] i = serN 0#6 i 8 ++ 0#2 := by
    rw [← lane_eight_eq_serN, show (0#6 ++ 0#2 : BitVec 8) = 0#8 from rfl, BitVec.zero_xor]
  rw [workingValue_eq_lane, BitVec.toNat_setWidth_of_le (by decide), hlane, toNat_append_eq_add, BitVec.toNat_zero]
  omega

/-- Settles O15: every step stays in the 8-bit lane, and the lane is the same in every register that holds it. -/
theorem workingValueStaysInItsLane : Obligations.WorkingValueStaysInItsLane := by
  unfold Obligations.WorkingValueStaysInItsLane
  refine ⟨fun w hw => ?step, fun i n _ => workingValue_le i n, workingValue_eight_mod_four, fun n i hn => ?width⟩
  case step =>
    obtain ⟨x, rfl⟩ := exists_eq_setWidth_of_le hw
    have hvalue := divStepIn_setWidth_toNat (n := 16) (by decide) x
    have htop : (x.setWidth 16)[7] = x.getLsbD 7 := BitVec.getElem_setWidth ..
    rw [divStep_POLY_eq_divStepIn, hvalue, BitVec.toNat_setWidth_of_le (by decide), htop]
    exact ⟨Nat.le_of_lt_succ (lane_step_lt x), rfl⟩
  case width =>
    have hn8 : 8 ≤ n := by omega
    rw [divStepIn_iterate_setWidth hn8, BitVec.setWidth_ushiftRight_eq_extractLsb, extractLsb'_setWidth_lane hn8,
      tableEntry_eq_lane]

end Sys2Proof.Machine
end

section
/-! The division is linear over exclusive-or, and so is the table; and the listing of 40_table_builder.md rule R65. -/

namespace Sys2Proof.Machine

/-- What is added to both sides of an exclusive-or cancels. -/
theorem xor_xor_xor_cancel {n : Nat} (x y q : BitVec n) : (x ^^^ q) ^^^ (y ^^^ q) = x ^^^ y :=
  calc (x ^^^ q) ^^^ (y ^^^ q)
      = (x ^^^ y) ^^^ (q ^^^ q) := by ac_rfl
    _ = x ^^^ y := by rw [BitVec.xor_self, BitVec.xor_zero]

theorem divStep_xor (v w : BitVec 16) (p : BitVec 7) : divStep (v ^^^ w) p = divStep v p ^^^ divStep w p := by
  simp only [divStep, BitVec.getElem_xor, BitVec.shiftLeft_xor_distrib]
  generalize p.setWidth 16 <<< Config.POLY_SHIFT = q
  cases v[7] with
  | false =>
    cases w[7] with
    | false => rfl
    | true => exact BitVec.xor_assoc _ _ _
  | true =>
    cases w[7] with
    | false =>
      show (v <<< 1 ^^^ w <<< 1) ^^^ q = (v <<< 1 ^^^ q) ^^^ w <<< 1
      ac_rfl
    | true => exact (xor_xor_xor_cancel _ _ _).symm

theorem workingValue_xor (a b : Index) (n : Nat) :
    workingValue (a ^^^ b) n = workingValue a n ^^^ workingValue b n := by
  induction n with
  | zero => exact BitVec.setWidth_xor
  | succ n ih => rw [workingValue, ih, divStep_xor, workingValue, workingValue]

theorem tableEntry_xor (a b : Index) : tableEntry (a ^^^ b) = tableEntry a ^^^ tableEntry b := by
  rw [tableEntry, workingValue_xor]
  exact BitVec.extractLsb'_xor

theorem workingValue_zero (n : Nat) : workingValue 0x00#8 n = 0#16 := by
  have h := workingValue_xor 0x00#8 0x00#8 n
  rwa [BitVec.xor_self, BitVec.xor_self] at h

/-- The listing is the table, index by index. -/
theorem listedTable_eq_map : listedTable = (List.range 256).map fun i => (tableEntry (BitVec.ofNat 8 i)).toNat := by
  decide +kernel

theorem listedTable_getElem? (i : Index) : listedTable[i.toNat]? = some (tableEntry i).toNat := by
  rw [listedTable_eq_map, List.getElem?_map, List.getElem?_range i.isLt, Option.map_some, BitVec.ofNat_toNat,
    BitVec.setWidth_eq]

/-- The indexes at which an entry stands, counted in the listing. -/
theorem countP_tableEntry_eq_count (v : Entry) :
    (List.range 256).countP (fun i => tableEntry (BitVec.ofNat 8 i) == v) = listedTable.count v.toNat := by
  rw [listedTable_eq_map, List.count, List.countP_map]
  congr 1
  funext i
  simp [Bool.beq_eq_decide_eq, BitVec.toNat_eq]

theorem listedTable_count (v : Entry) : listedTable.count v.toNat = 4 := by
  revert v
  decide +kernel

/-- The four zeros of the table. -/
theorem tableEntry_eq_zero_iff (i : Index) :
    tableEntry i = 0#6 ↔ i = 0x00#8 ∨ i = 0x67#8 ∨ i = 0xA9#8 ∨ i = 0xCE#8 := by
  revert i
  decide +kernel

/-- Settles O18: the listing is compared with the table once, its counts are the table's, and the division is linear. -/
theorem tableIsTheListedTable : Obligations.TableIsTheListedTable := by
  unfold Obligations.TableIsTheListedTable
  refine ⟨listedTable_getElem?, ?length, fun v => ?four, tableEntry_eq_zero_iff, tableEntry_xor, ?powers⟩
  case length => rw [listedTable_eq_map, List.length_map, List.length_range]
  case four => rw [countP_tableEntry_eq_count, listedTable_count]
  case powers => rfl

end Sys2Proof.Machine
end

section
/-! What BUILD_TABLE and READ_TABLE leave, what every command leaves alone, and the statements of 40_table_builder.md about
the two commands. -/

namespace Sys2Proof.Machine

/-- Over a table that holds every entry the builder's run changes no read, within the index space or outside it. -/
theorem filledTable_get_of_holds {t : Table} (h : t.holdsEntries) (j : Nat) :
    Table.get (filledTable t) j = Table.get t j := by
  obtain hj | hj := Nat.lt_or_ge j Config.TABLE_ENTRIES
  · have hindex : (BitVec.ofNat 8 j).toNat = j := Nat.mod_eq_of_lt hj
    have hfilled := filledTable_get t (BitVec.ofNat 8 j)
    have hheld := h (BitVec.ofNat 8 j)
    rw [hindex] at hfilled hheld
    rw [hfilled, hheld]
  · exact filledTable_get_outside t hj

/-- Settles O16: the builder's run fills the table, and what a built table reads as is what it is filled with. -/
theorem buildTableWritesEveryEntry : Obligations.BuildTableWritesEveryEntry := by
  unfold Obligations.BuildTableWritesEveryEntry
  refine ⟨fun s => ?build, fun s hs hb => ?rebuild, by decide, by decide, fun n _ => workingValue_zero n,
    by decide, by decide, ?_, ?_, ?_, ?_⟩
  case build =>
    exact ⟨_, exec_buildTable s, rfl, filledTable_get s.TABLE, fun _ hj => filledTable_get_outside s.TABLE hj, rfl, rfl⟩
  case rebuild => exact ⟨_, exec_buildTable s, rfl, filledTable_get_of_holds (hs.holds hb)⟩
  all_goals exact (tableEntry_eq_zero_iff _).mpr (by decide)

/-- Settles O17: the entry found is `TableEntry` of the index, and its response word the entry zero-extended. -/
theorem readTableAnswersTheEntry : Obligations.ReadTableAnswersTheEntry := by
  unfold Obligations.ReadTableAnswersTheEntry
  refine ⟨fun _ i hb => exec_readTable_of_not_built i hb, fun s i hs hb => ?built, by decide, by decide, by decide⟩
  case built => rw [exec_readTable_of_holds i hb (hs.holds hb), respond_eq_answered, word_doneRead]

/-- TABLE_BUILT set where it is set already changes nothing. -/
theorem setBuilt_of_built {s : State} (h : s.TABLE_BUILT = true) : setBuilt s = s := by
  rw [setBuilt, ← h]

/-- Settles O47: in canonical form the filled table is the built table, and so is a table that holds every entry. -/
theorem buildLeavesTheCanonicalTable : Obligations.BuildLeavesTheCanonicalTable := by
  unfold Obligations.BuildLeavesTheCanonicalTable
  refine fun s hcanonical => ⟨?fresh, fun hs hb => ?rebuild⟩
  case fresh =>
    rw [exec_buildTable, filledTable_eq s.TABLE hcanonical]
    rfl
  case rebuild =>
    rw [exec_buildTable, filledTable_eq s.TABLE hcanonical, ← Table.eq_builtTable hcanonical (hs.holds hb),
      setBuilt_of_built hb]
    rfl

/-- Settles O57: a command that ends has answered one response, and only BUILD_TABLE has filled the table. -/
theorem commandsChangeNothingElse : Obligations.CommandsChangeNothingElse := by
  unfold Obligations.CommandsChangeNothingElse
  refine ⟨fun i s t hi h => ?reader, fun s t h => ?build⟩
  case reader =>
    obtain ⟨response, rfl⟩ | ⟨hbuild, -⟩ := exec_next h
    · exact ⟨fun _ => rfl, rfl, rfl, rfl, response.word, rfl⟩
    · exact absurd hbuild hi
  case build =>
    obtain rfl := Host.Outcome.next.inj ((exec_buildTable s).symm.trans h)
    exact ⟨fun _ hj => filledTable_get_outside s.TABLE hj, rfl, _, rfl⟩

end Sys2Proof.Machine
end

section
/-! The index, the fold and the residual of the Table-Driven Verifier, and the statements of 41_table_verifier.md rules R70
to R73. -/

namespace Sys2Proof.Machine

/-! ## The table index (R70) -/

/-- The register shifted by FOLD_SHIFT is the register above two zero bits: nothing is lost (R70). -/
theorem setWidth_shiftLeft_FOLD_SHIFT (r : Entry) : r.setWidth 8 <<< Config.FOLD_SHIFT = r ++ 0#2 := by
  apply BitVec.eq_of_toNat_eq
  rw [BitVec.toNat_shiftLeft, Nat.shiftLeft_eq, BitVec.toNat_setWidth, Config.FOLD_SHIFT, toNat_append_eq_add,
    BitVec.toNat_zero]
  omega

theorem foldIndex_eq_append (r : Entry) (b : BitVec 8) : foldIndex r b = (r ++ 0#2) ^^^ b := by
  rw [foldIndex, setWidth_shiftLeft_FOLD_SHIFT]

theorem foldIndex_toNat (r : Entry) (b : BitVec 8) :
    (foldIndex r b).toNat = ((4 * r.toNat) ^^^ b.toNat) % 2 ^ 8 := by
  have hshift : (r ++ 0#2).toNat = 4 * r.toNat := by
    rw [toNat_append_eq_add, BitVec.toNat_zero]
    omega
  rw [← Nat.mod_eq_of_lt (foldIndex r b).isLt, foldIndex_eq_append, BitVec.toNat_xor, hshift]

theorem foldIndex_extractLsb'_high (r : Entry) (b : BitVec 8) :
    (foldIndex r b).extractLsb' 2 6 = r ^^^ b.extractLsb' 2 6 := by
  rw [foldIndex_eq_append, BitVec.extractLsb'_xor, BitVec.extractLsb'_append_eq_left]

theorem foldIndex_extractLsb'_low (r : Entry) (b : BitVec 8) :
    (foldIndex r b).extractLsb' 0 2 = b.extractLsb' 0 2 := by
  rw [foldIndex_eq_append, BitVec.extractLsb'_xor, BitVec.extractLsb'_append_eq_right, BitVec.zero_xor]

/-- The first index of a frame is 0x94 xor its byte0 (R72). -/
theorem foldIndex_SEED (b : BitVec 8) : foldIndex Config.SEED b = 0x94#8 ^^^ b := rfl

/-- Settles O21: the shifted register and the byte overlap in bits [7:2] only. -/
theorem foldIndexShiftsThenXors : Obligations.FoldIndexShiftsThenXors := by
  unfold Obligations.FoldIndexShiftsThenXors
  intro r b
  exact ⟨foldIndex_toNat r b, by omega, foldIndex_eq_append r b, foldIndex_extractLsb'_high r b,
    foldIndex_extractLsb'_low r b⟩

/-! ## One fold (R71) -/

theorem foldByte_of_memRead_ok {s : State} {g : Config.FoldRegs} {k : Nat} {v : Entry}
    (h : memRead (foldIndex g.R (frameByte g.F (BitVec.ofNat 2 k))) s = .ok v) :
    foldByte s g k = .ok ⟨v, foldIndex g.R (frameByte g.F (BitVec.ofNat 2 k)), BitVec.ofNat 2 k, g.F⟩ := by
  rw [foldByte, h]
  rfl

theorem foldByte_of_memRead_error {s : State} {g : Config.FoldRegs} {k : Nat} {e : Stop}
    (h : memRead (foldIndex g.R (frameByte g.F (BitVec.ofNat 2 k))) s = .error e) : foldByte s g k = .error e := by
  rw [foldByte, h]
  rfl

/-- Settles O22: a fold ends as the read at its index ends, and in a built table the read finds `TableEntry`. -/
theorem foldReadsTheIndexedEntry : Obligations.FoldReadsTheIndexedEntry := by
  unfold Obligations.FoldReadsTheIndexedEntry
  refine fun s g k _ => ⟨fun _ => foldByte_of_memRead_ok, fun _ => foldByte_of_memRead_error, fun hs hb => ?built⟩
  case built => exact foldByte_of_memRead_ok (memRead_of_get hb (hs.holds hb _))

/-! ## The three folds (R72) -/

/-- `CrcTable` written out in indexes and entries, over the slices of the frame (R32, R71, R72). -/
theorem crcTable_eq_tableEntry (f : Frame) : crcTable f =
    tableEntry (foldIndex (tableEntry (foldIndex (tableEntry (foldIndex 0x25#6 (f.extractLsb' 16 8)))
      (f.extractLsb' 8 8))) (f.extractLsb' 0 8)) := rfl

/-- The unit's run on a built table completes, with `CrcTable` in R. -/
theorem exists_foldRun_of_holds (g : Config.FoldRegs) (f : Frame) {s : State} (h : s.TABLE_BUILT = true)
    (ht : s.TABLE.holdsEntries) : ∃ g', foldRun g f s = .ok g' ∧ g'.R = crcTable f := by
  have hrun := foldRun_of_holds g f h ht
  match hg : foldRun g f s with
  | .ok g' =>
    rw [hg] at hrun
    exact ⟨g', rfl, Except.ok.inj hrun⟩
  | .error e =>
    rw [hg] at hrun
    cases hrun

/-- Settles O23: the three folds written out, and the unit's run on a table that holds every entry. -/
theorem crcTableFoldsTheBytesFromSeed : Obligations.CrcTableFoldsTheBytesFromSeed := by
  unfold Obligations.CrcTableFoldsTheBytesFromSeed
  exact ⟨crcTable_eq_tableEntry, foldIndex_SEED, fun _ g f hs hb => exists_foldRun_of_holds g f hb (hs.holds hb)⟩

/-! ## The verdict (R73) -/

/-- A frame is valid exactly when its last index is at one of the table's four zeros (R65, R73). -/
theorem crcTable_eq_zero_iff (f : Frame) : crcTable f = 0#6 ↔
    foldIndex (fold (fold Config.SEED (frameByte f 0)) (frameByte f 1)) (frameByte f 2) ∈
      [0x00#8, 0x67#8, 0xA9#8, 0xCE#8] := by
  simp only [List.mem_cons, List.not_mem_nil, or_false]
  exact tableEntry_eq_zero_iff _

/-- Settles O24: the verdict's word is that of the residual, and a residual is zero at the table's four zeros. -/
theorem verifyTableAnswersZeroResidual : Obligations.VerifyTableAnswersZeroResidual := by
  unfold Obligations.VerifyTableAnswersZeroResidual
  refine ⟨fun _ f hb => exec_verifyTable_of_not_built f hb, fun s f hs hb => ?built, crcTable_eq_zero_iff,
    by decide, by decide, by decide⟩
  case built =>
    rw [exec_verifyTable_of_holds f hb (hs.holds hb), respond_eq_answered, word_doneVerify_registerIsZero, verdictWord]

end Sys2Proof.Machine
end

section
/-! Both verifiers are unrollings of the single-bit register step (43_equivalence_properties.md rule R100), so they reach the
same residual (R96); and the statement that it never leaves the block (R74, R88). -/

namespace Sys2Proof.Machine

/-! ## Single-bit steps over the slices of a word -/

/-- The steps over the low `n + k` bits of a word begin with those over the slice above bit `n`. -/
theorem serN_extractLsb' {m w : Nat} (r : Entry) (v : BitVec m) (n : Nat) {k : Nat} (hk : k ≤ w) :
    serN r v (n + k) = serN (serN r (v.extractLsb' n w) k) v n := by
  induction k generalizing r with
  | zero => rfl
  | succ k ih =>
    have hbit : (v.extractLsb' n w).getLsbD k = v.getLsbD (n + k) := by
      rw [BitVec.getLsbD_extractLsb', decide_eq_true (Nat.lt_of_succ_le hk), Bool.true_and]
    rw [← Nat.add_assoc, serN, serN, ih _ (Nat.le_of_succ_le hk), hbit]

/-! ## The table path -/

theorem fold_eq_serN (r : Entry) (b : BitVec 8) : fold r b = serN r b 8 := by
  rw [fold, foldIndex_eq_append, tableEntry_eq_serN]

/-- The table path's residual is the register after the frame's 24 bits (R100). -/
theorem crcTable_eq_serN (f : Frame) : crcTable f = serN Config.SEED f 24 := by
  symm
  calc serN Config.SEED f 24
      = serN (serN Config.SEED (frameByte f 0) 8) f 16 := serN_extractLsb' _ f 16 (le_refl 8)
    _ = serN (serN (serN Config.SEED (frameByte f 0) 8) (frameByte f 1) 8) f 8 := serN_extractLsb' _ f 8 (le_refl 8)
    _ = serN (serN (serN (serN Config.SEED (frameByte f 0) 8) (frameByte f 1) 8) (frameByte f 2) 8) f 0 :=
        serN_extractLsb' _ f 0 (le_refl 8)
    _ = crcTable f := by simp only [crcTable, crcTableFrom, fold_eq_serN, serN]

/-! ## The bit-serial path -/

/-- The single-bit step on the elements of a state vector: the shift, with the feedback added where `POLY[5:0]` has a
one (R99). -/
def serVector (cv : Vector Bool 7) (bit : Bool) : Vector Bool 7 :=
  #v[cv[5] ^^ bit, cv[0] ^^ cv[5] ^^ bit, cv[1] ^^ cv[5] ^^ bit, cv[2], cv[3], cv[4] ^^ cv[5] ^^ bit, cv[6]]

theorem num_serVector (cv : Vector Bool 7) (bit : Bool) : num (serVector cv bit) = ser (num cv) bit := by
  dsimp only [num, serVector, Vector.getElem_mk, List.getElem_toArray, List.getElem_cons_zero, List.getElem_cons_succ]
  generalize cv[0] = c0, cv[1] = c1, cv[2] = c2, cv[3] = c3, cv[4] = c4, cv[5] = c5
  revert c0 c1 c2 c3 c4 c5 bit
  decide

/-- R83's equations are six single-bit steps worked out, but for the carry slot, which is no part of `Num`. -/
theorem num_step6_eq_num_serVector (ch : Vector Bool 7) (d : Vector Bool 6) : num (step6 ch d) =
    num (serVector (serVector (serVector (serVector (serVector (serVector ch d[0]) d[1]) d[2]) d[3]) d[4]) d[5]) := by
  dsimp only [num, step6, serVector, Vector.getElem_mk, List.getElem_toArray, List.getElem_cons_zero,
    List.getElem_cons_succ]
  generalize ch[0] = c0, ch[1] = c1, ch[2] = c2, ch[3] = c3, ch[4] = c4, ch[5] = c5
  generalize d[0] = d0, d[1] = d1, d[2] = d2, d[3] = d3, d[4] = d4, d[5] = d5
  simp only [Bool.xor_left_comm, Bool.xor_comm, Bool.bne_self_left]

/-- One step of the bit-serial path is six single-bit steps on its group (R100). -/
theorem num_step6_eq_serN (ch : Vector Bool 7) (g : BitVec 6) :
    num (step6 ch (groupBits g)) = serN (num ch) g 6 := by
  rw [num_step6_eq_num_serVector]
  simp only [num_serVector]
  rfl

theorem num_initC : num initC = Config.SEED := by decide

theorem num_serialState_succ (f : Frame) (n : Nat) :
    num (serialState f (n + 1)) = serN (num (serialState f n)) (group f (BitVec.ofNat 2 n)) 6 :=
  num_step6_eq_serN _ _

/-- After `n` groups the register stands where the single-bit steps over the frame's bits so far have brought it. -/
theorem serN_serialState (f : Frame) {n : Nat} (hn : n ≤ 4) :
    serN (num (serialState f n)) f (24 - 6 * n) = serN Config.SEED f 24 := by
  induction n with
  | zero => rw [serialState, num_initC]
  | succ n ih =>
    have hgroup : group f (BitVec.ofNat 2 n) = f.extractLsb' (24 - 6 * (n + 1)) 6 := by
      have hplace : 18 - 6 * n = 24 - 6 * (n + 1) := by omega
      rw [group, BitVec.toNat_ofNat, Nat.mod_eq_of_lt (by omega), Config.GROUP_W, hplace]
    have hbits : 24 - 6 * n = 24 - 6 * (n + 1) + 6 := by omega
    rw [num_serialState_succ, hgroup, ← ih (by omega), hbits, serN_extractLsb' _ f _ (le_refl 6)]

/-- The bit-serial path's residual is the register after the frame's 24 bits (R100). -/
theorem num_crcDirect_eq_serN (f : Frame) : num (crcDirect f) = serN Config.SEED f 24 :=
  serN_serialState f (le_refl 4)

/-- The two paths reach the same residual (R96). -/
theorem num_crcDirect_eq_crcTable (f : Frame) : num (crcDirect f) = crcTable f := by
  rw [num_crcDirect_eq_serN, crcTable_eq_serN]

/-! ## What an invalid frame is answered (R74, R88) -/

theorem registerIsZero_crcTable_of_not_valid {f : Frame} (h : ¬ validFrame f) : registerIsZero (crcTable f) = false :=
  beq_eq_false_iff_ne.mpr h

theorem exec_verifyDirect_eq_crcTable (f : Frame) (s : State) :
    exec (.verifyDirect f) s = .next (respond (.doneVerify (registerIsZero (crcTable f))) s) := by
  rw [exec_verifyDirect, vectorIsZero_eq_registerIsZero, num_crcDirect_eq_crcTable]

/-- Settles O56: each command's answer on an invalid frame is the one verdict that a residual other than zero has. -/
theorem residualIsNeverReturned : Obligations.ResidualIsNeverReturned := by
  unfold Obligations.ResidualIsNeverReturned
  intro s f f' hs hf hf'
  have hverdict := (registerIsZero_crcTable_of_not_valid hf).trans (registerIsZero_crcTable_of_not_valid hf').symm
  refine ⟨?table, ?direct⟩
  case table =>
    cases hb : s.TABLE_BUILT with
    | false => rw [exec_verifyTable_of_not_built f hb, exec_verifyTable_of_not_built f' hb]
    | true =>
      rw [exec_verifyTable_of_holds f hb (hs.holds hb), exec_verifyTable_of_holds f' hb (hs.holds hb), hverdict]
  case direct => rw [exec_verifyDirect_eq_crcTable, exec_verifyDirect_eq_crcTable, hverdict]

end Sys2Proof.Machine
end

section
/-! The groups of a frame, the seven equations, and the residual of the Bit-Serial Verifier, and the statements of
42_bit_serial_verifier.md rules R80 to R87. -/

namespace Sys2Proof.Machine

/-! ## The groups of a frame (R80) -/

theorem group_getLsbD (f : Frame) (s : BitVec 2) {k : Nat} (hk : k < 6) :
    (group f s).getLsbD k = f.getLsbD (18 - 6 * s.toNat + k) := by
  rw [group, Config.GROUP_W, BitVec.getLsbD_extractLsb', decide_eq_true hk, Bool.true_and]

/-- The groups are adjacent slices, the most significant first. -/
theorem group_append (f : Frame) : group f 0 ++ group f 1 ++ group f 2 ++ group f 3 = f := by
  show f.extractLsb' 18 6 ++ f.extractLsb' 12 6 ++ f.extractLsb' 6 6 ++ f.extractLsb' 0 6 = f
  rw [BitVec.extractLsb'_append_extractLsb'_eq_extractLsb' (rfl : 18 = 12 + 6),
    BitVec.extractLsb'_append_extractLsb'_eq_extractLsb' (rfl : 12 = 6 + 6),
    BitVec.extractLsb'_append_extractLsb'_eq_extractLsb' (rfl : 6 = 0 + 6)]
  exact BitVec.extractLsb'_eq_self

/-- A slice of a frame byte is a slice of the frame (R32). -/
theorem frameByte_extractLsb' (f : Frame) (k : BitVec 2) {start len : Nat} (h : start + len ≤ 8) :
    (frameByte f k).extractLsb' start len = f.extractLsb' (16 - 8 * k.toNat + start) len := by
  ext i hi
  have hbyte : start + i < 8 := by omega
  rw [frameByte, BitVec.getElem_extractLsb', BitVec.getLsbD_extractLsb', decide_eq_true hbyte, Bool.true_and,
    BitVec.getElem_extractLsb', Nat.add_assoc]

/-- Settles O25: a group is a slice of the frame, and so is each slice of a byte. -/
theorem groupsAreTheFrameFromTheTop : Obligations.GroupsAreTheFrameFromTheTop := by
  unfold Obligations.GroupsAreTheFrameFromTheTop
  refine fun f => ⟨fun s k hk => group_getLsbD f s hk, group_append f, ?group0, ?group1, ?group2, ?group3⟩
  case group0 => exact (frameByte_extractLsb' f 0 (start := 2) (len := 6) (by decide)).symm
  case group1 =>
    rw [frameByte_extractLsb' f 0 (by decide), frameByte_extractLsb' f 1 (by decide)]
    exact Eq.symm (BitVec.extractLsb'_append_extractLsb'_eq_extractLsb' rfl)
  case group2 =>
    rw [frameByte_extractLsb' f 1 (by decide), frameByte_extractLsb' f 2 (by decide)]
    exact Eq.symm (BitVec.extractLsb'_append_extractLsb'_eq_extractLsb' rfl)
  case group3 => exact (frameByte_extractLsb' f 2 (start := 0) (len := 6) (by decide)).symm

/-! ## The bits of a group (R81) -/

theorem groupBits_getElem (g : BitVec 6) (k : Fin 6) : (groupBits g)[k] = g.getLsbD (5 - k) := by
  fin_cases k <;> rfl

/-- Settles O26: the group's bits are its own from the top, and bit `5 - k` of the group is where R80 places it. -/
theorem groupBitsStartAtTheTop : Obligations.GroupBitsStartAtTheTop := by
  unfold Obligations.GroupBitsStartAtTheTop
  refine ⟨groupBits_getElem, fun f s k => ?frame⟩
  case frame =>
    have hplace : 18 - 6 * s.toNat + (5 - k) = 23 - 6 * s.toNat - k := by omega
    rw [groupBits_getElem, group_getLsbD f s (by omega), hplace]

/-! ## The number a state vector holds (R82, R84) -/

theorem num_toNat (cv : Vector Bool 7) : (num cv).toNat = cv[0].toNat + 2 * cv[1].toNat + 4 * cv[2].toNat +
    8 * cv[3].toNat + 16 * cv[4].toNat + 32 * cv[5].toNat := by
  simp only [num, toNat_append_eq_add, BitVec.toNat_ofBool]
  omega

/-- State vectors that agree on `c[0..5]` differ in the carry slot at most. -/
theorem eq_set_carry {cv dv : Vector Bool 7} (h : ∀ k : Fin 6, cv[k] = dv[k]) : dv = cv.set 6 dv[6] := by
  ext i hi
  rw [Vector.getElem_set]
  split
  case isTrue hcarry => simp only [← hcarry]
  case isFalse hcarry => exact (h ⟨i, by omega⟩).symm

/-- The carry slot is no part of the number. -/
theorem num_set_carry (cv : Vector Bool 7) (b : Bool) : num (cv.set 6 b) = num cv := by
  simp [num]

theorem num_congr {cv dv : Vector Bool 7} (h : ∀ k : Fin 6, cv[k] = dv[k]) : num cv = num dv := by
  rw [eq_set_carry h, num_set_carry]

/-- Settles O27: the number is a concatenation of six single bits, and the initial pattern holds SEED. -/
theorem initialVectorHoldsSeed : Obligations.InitialVectorHoldsSeed := by
  unfold Obligations.InitialVectorHoldsSeed
  exact ⟨num_toNat, fun _ _ => num_congr, rfl, num_initC, num_initC⟩

/-! ## The seven equations (R83) -/

/-- The carry slot takes part in no equation. -/
theorem step6_set_carry (ch : Vector Bool 7) (b : Bool) (d : Vector Bool 6) : step6 (ch.set 6 b) d = step6 ch d := by
  simp [step6]

theorem step6_congr {ch ch' : Vector Bool 7} (d : Vector Bool 6) (h : ∀ k : Fin 6, ch[k] = ch'[k]) :
    step6 ch d = step6 ch' d := by
  rw [eq_set_carry h, step6_set_carry]

/-- The steps over a group are the lane's division steps: register and group stand in the same bits [7:2]. -/
theorem serN_six_append (r : Entry) (g : BitVec 6) :
    serN r g 6 ++ 0#2 = (divStepIn 8)^[6] ((r ^^^ g) ++ 0#2) := by
  have hlane := divStepIn_iterate_eq_serN r (g.setWidth 8) (n := 6) (by decide)
  have hshift : g.setWidth 8 <<< (8 - 6) = g ++ 0#2 := setWidth_shiftLeft_FOLD_SHIFT g
  have hlow : serN r (g.setWidth 8) 6 = serN r g 6 := by
    have hslice := serN_extractLsb' r (g.setWidth 8) 0 (le_refl 6)
    rwa [BitVec.extractLsb'_setWidth_of_le (by decide), BitVec.extractLsb'_eq_self] at hslice
  rw [← hlow, ← hlane, hshift, BitVec.xor_append, BitVec.xor_zero]

/-- Six single-bit steps depend only on the register xor the group they consume. -/
theorem serN_six_congr {r r' : Entry} {g g' : BitVec 6} (h : r ^^^ g = r' ^^^ g') : serN r g 6 = serN r' g' 6 := by
  rw [← BitVec.append_left_inj 0#2, serN_six_append, serN_six_append, h]

/-- Settles O28: the equations are the definition's own, and the number reached is six single-bit steps over the group. -/
theorem stepSixFollowsTheEquations : Obligations.StepSixFollowsTheEquations := by
  unfold Obligations.StepSixFollowsTheEquations
  refine ⟨fun _ _ => ⟨rfl, rfl, rfl, rfl, rfl, rfl, rfl⟩, fun _ _ d => step6_congr d, fun ch ch' g g' h => ?number⟩
  case number => rw [num_step6_eq_serN, num_step6_eq_serN, serN_six_congr h]

/-! ## The four steps (R85) -/

/-- `CrcDirect` written out over the slices of the frame. -/
theorem crcDirect_eq_step6 (f : Frame) :
    crcDirect f = step6 (step6 (step6 (step6 #v[true, false, true, false, false, true, false]
      (groupBits (f.extractLsb' 18 6))) (groupBits (f.extractLsb' 12 6))) (groupBits (f.extractLsb' 6 6)))
      (groupBits (f.extractLsb' 0 6)) := rfl

/-- Settles O29: the registers compute `CrcDirect` whatever they held, and it is four steps from the initial pattern. -/
theorem serialRunComputesCrcDirect : Obligations.SerialRunComputesCrcDirect := by
  unfold Obligations.SerialRunComputesCrcDirect
  exact fun g f => ⟨serialRun_C g f, crcDirect_eq_step6 f⟩

/-! ## Validity (R86) -/

theorem vectorIsZero_iff_forall (cv : Vector Bool 7) : vectorIsZero cv = true ↔ ∀ k : Fin 6, cv[k] = false := by
  simp [vectorIsZero, Fin.forall_fin_succ, and_assoc]

theorem vectorIsZero_iff_num (cv : Vector Bool 7) : vectorIsZero cv = true ↔ num cv = 0#6 := by
  rw [vectorIsZero_eq_registerIsZero, registerIsZero, beq_iff_eq]

/-- After each step the carry slot is the `c[5]` of before. -/
theorem serialState_succ_carry (f : Frame) (n : Nat) : (serialState f (n + 1))[6] = (serialState f n)[5] := rfl

/-- Settles O30: the test reads `c[0]` to `c[5]`, which is `Num`, and two valid frames differ in the carry slot. -/
theorem validityIgnoresTheCarrySlot : Obligations.ValidityIgnoresTheCarrySlot := by
  unfold Obligations.ValidityIgnoresTheCarrySlot
  exact ⟨fun cv => ⟨vectorIsZero_iff_forall cv, vectorIsZero_iff_num cv⟩, fun f n _ => serialState_succ_carry f n,
    by decide, by decide⟩

/-! ## VERIFY_DIRECT (R87) -/

/-- Settles O31: the verdict's word is that of the number the run ends with, in any state. -/
theorem verifyDirectAnswersInEveryState : Obligations.VerifyDirectAnswersInEveryState := by
  unfold Obligations.VerifyDirectAnswersInEveryState
  refine ⟨fun s f => ?verdict, by decide, by decide, by decide, by decide⟩
  case verdict =>
    rw [exec_verifyDirect, respond_eq_answered, vectorIsZero_eq_registerIsZero, word_doneVerify_registerIsZero,
      verdictWord]

end Sys2Proof.Machine
end

section
/-! The properties that tie the two verifiers together: the single-bit step and the division step (R99), both as
unrollings of it (R100), equal residuals and equal responses (R95, R96), and READ_TABLE after a build, a rebuild and a
reset (R98); the statements of 43_equivalence_properties.md rules R95 to R100. -/

namespace Sys2Proof.Machine

/-! ## The single-bit step (R99) -/

theorem ser_toNat (r : Entry) (b : Bool) :
    (ser r b).toNat = if r[5] ^^ b then (2 * r.toNat % 64) ^^^ 0x27 else 2 * r.toNat % 64 := by
  rw [ser, apply_ite BitVec.toNat, BitVec.toNat_xor, shiftLeft_one_toNat]
  rfl

/-- A register value in `W[7:2]` is a byte of the lane. -/
theorem append_zero_eq_setWidth (r : Entry) : 0#8 ++ r ++ 0#2 = (r ++ 0#2).setWidth 16 := by
  rw [BitVec.setWidth_eq_append (by decide)]
  exact BitVec.append_assoc

/-- So is a register value in `W[7:2]` with a bit added at bit 7. -/
theorem append_xor_bit_eq_setWidth (r : Entry) (b : Bool) :
    (0#8 ++ r ++ 0#2) ^^^ ((BitVec.ofBool b).setWidth 16 <<< 7) =
      ((r ++ 0#2) ^^^ ((BitVec.ofBool b).setWidth 8 <<< 7)).setWidth 16 := by
  have hbit : (BitVec.ofBool b).setWidth 16 <<< 7 = ((BitVec.ofBool b).setWidth 8 <<< 7).setWidth 16 := by
    cases b <;> rfl
  rw [append_zero_eq_setWidth, hbit, BitVec.setWidth_xor]

/-- One division step is one single-bit step on the bit added at bit 7 (R99). -/
theorem divStep_POLY_eq_ser (r : Entry) (b : Bool) :
    divStep ((0#8 ++ r ++ 0#2) ^^^ ((BitVec.ofBool b).setWidth 16 <<< 7)) Config.POLY = 0#8 ++ ser r b ++ 0#2 := by
  have htop : ((BitVec.ofBool b).setWidth 8 <<< 7).getLsbD 7 = b := by cases b <;> rfl
  have hshift : (BitVec.ofBool b).setWidth 8 <<< 7 <<< 1 = 0#8 := by cases b <;> rfl
  rw [append_xor_bit_eq_setWidth, divStep_POLY_eq_divStepIn, divStepIn_setWidth (by decide), divStepIn_lane_eq_ser,
    htop, hshift, BitVec.xor_zero, append_zero_eq_setWidth]

/-- Settles O34: the shift and the added `POLY[5:0]` in numbers, and the division step within the lane. -/
theorem divStepIsTheSingleBitStep : Obligations.DivStepIsTheSingleBitStep := by
  unfold Obligations.DivStepIsTheSingleBitStep
  exact fun r b => ⟨ser_toNat r b, divStep_POLY_eq_ser r b⟩

/-! ## Both paths (R95, R96, R100) -/

/-- Settles O35: a fold is eight single-bit steps and a group six, and a frame's three bytes or four groups are its 24
bits. -/
theorem bothVerifiersUnrollTheSingleBitStep : Obligations.BothVerifiersUnrollTheSingleBitStep := by
  unfold Obligations.BothVerifiersUnrollTheSingleBitStep
  exact ⟨fold_eq_serN, num_step6_eq_serN, fun f => ⟨crcTable_eq_serN f, num_crcDirect_eq_serN f⟩⟩

/-- Settles O33: both residuals are the register after the frame's 24 bits. -/
theorem bothPathsReachTheSameResidual : Obligations.BothPathsReachTheSameResidual := by
  unfold Obligations.BothPathsReachTheSameResidual
  exact num_crcDirect_eq_crcTable

/-- A frame is valid for the one path exactly when it is for the other. -/
theorem validFrame_iff_num_crcDirect (f : Frame) : validFrame f ↔ num (crcDirect f) = 0#6 := by
  rw [validFrame, num_crcDirect_eq_crcTable]

/-- Settles O32: on a table that holds every entry both commands answer whether the one residual is zero. -/
theorem bothVerifiersRespondAlike : Obligations.BothVerifiersRespondAlike := by
  unfold Obligations.BothVerifiersRespondAlike
  exact ⟨fun s f hs hb => ⟨_, exec_verifyTable_of_holds f hb (hs.holds hb), exec_verifyDirect_eq_crcTable f s⟩,
    validFrame_iff_num_crcDirect⟩

/-! ## Table determinism (R98) -/

/-- After BUILD_TABLE, from any state at all, READ_TABLE answers the entry. -/
theorem exec_readTable_after_buildTable (s : State) (i : Index) : ∃ t, exec .buildTable s = .next t ∧
    exec (.readTable i) t = .next (t.answered ((tableEntry i).setWidth 10)) := by
  refine ⟨_, exec_buildTable s, ?_⟩
  rw [exec_readTable_of_holds i rfl (filledTable_holdsEntries s.TABLE), respond_eq_answered, word_doneRead]

/-- Settles O20: what READ_TABLE answers after a build does not depend on the state that was built from. -/
theorem rebuiltTableReadsTheSame : Obligations.RebuiltTableReadsTheSame := by
  unfold Obligations.RebuiltTableReadsTheSame
  intro s i _
  obtain ⟨t₁, hbuild, hread⟩ := exec_readTable_after_buildTable s i
  obtain ⟨t₂, hrebuild, hreread⟩ := exec_readTable_after_buildTable t₁ i
  obtain ⟨t₃, hreset, hafter⟩ := exec_readTable_after_buildTable (resetBlock t₂) i
  exact ⟨t₁, t₂, t₃, hbuild, hread, hrebuild, hreread, hreset, hafter⟩

end Sys2Proof.Machine
end

section
/-! The residual is an affine function of the frame (R102), so the syndrome of an error pattern alone tells whether
it is detected (R101); the statements of 43_equivalence_properties.md rules R101 and R102. -/

namespace Sys2Proof.Machine

/-! ## The table path is linear in register and frame -/

theorem foldIndex_xor (r q : Entry) (b c : BitVec 8) :
    foldIndex (r ^^^ q) (b ^^^ c) = foldIndex r b ^^^ foldIndex q c := by
  rw [foldIndex, BitVec.setWidth_xor, BitVec.shiftLeft_xor_distrib, foldIndex, foldIndex]
  ac_rfl

theorem fold_xor (r q : Entry) (b c : BitVec 8) : fold (r ^^^ q) (b ^^^ c) = fold r b ^^^ fold q c := by
  rw [fold, foldIndex_xor, tableEntry_xor, fold, fold]

theorem frameByte_xor (f e : Frame) (k : BitVec 2) : frameByte (f ^^^ e) k = frameByte f k ^^^ frameByte e k :=
  BitVec.extractLsb'_xor

theorem crcTableFrom_xor (r q : Entry) (f e : Frame) :
    crcTableFrom (r ^^^ q) (f ^^^ e) = crcTableFrom r f ^^^ crcTableFrom q e := by
  simp only [crcTableFrom, frameByte_xor, fold_xor]

/-- The error pattern adds its syndrome to the residual (R102). -/
theorem crcTable_xor (f e : Frame) : crcTable (f ^^^ e) = crcTable f ^^^ syn e := by
  have h := crcTableFrom_xor Config.SEED 0#6 f e
  rwa [BitVec.xor_zero] at h

theorem syn_xor (e₁ e₂ : Frame) : syn (e₁ ^^^ e₂) = syn e₁ ^^^ syn e₂ := by
  have h := crcTableFrom_xor 0#6 0#6 e₁ e₂
  rwa [BitVec.xor_zero] at h

/-! ## The syndromes of the single bits (R102) -/

theorem listedSyndromes_getElem? {k : Nat} (hk : k < 24) :
    listedSyndromes[k]? = some (syn (1#24 <<< k)).toNat := by
  revert k
  decide +kernel

theorem zero_notMem_listedSyndromes : 0 ∉ listedSyndromes := by decide

theorem listedSyndromes_nodup : listedSyndromes.Nodup := by decide

theorem extractLsb'_setWidth_eq_zero (b : BitVec 8) {start : Nat} (h : 8 ≤ start) :
    (b.setWidth 24).extractLsb' start 8 = 0#8 := by
  ext i hi
  rw [BitVec.getElem_extractLsb', BitVec.getLsbD_setWidth, BitVec.getLsbD_of_ge b _ (by omega), Bool.and_false,
    BitVec.getElem_zero]

/-- An error in the last byte alone has its table entry as syndrome: the folds of two zero bytes leave register
0. -/
theorem syn_setWidth (b : BitVec 8) : syn (b.setWidth 24) = tableEntry b := by
  have hbyte0 : frameByte (b.setWidth 24) 0 = 0#8 := extractLsb'_setWidth_eq_zero b (by decide)
  have hbyte1 : frameByte (b.setWidth 24) 1 = 0#8 := extractLsb'_setWidth_eq_zero b (by decide)
  have hbyte2 : frameByte (b.setWidth 24) 2 = b :=
    (BitVec.extractLsb'_setWidth_of_le (by decide)).trans BitVec.extractLsb'_eq_self
  have hzero : fold 0#6 0#8 = 0#6 := rfl
  have hindex : foldIndex 0#6 b = b := BitVec.zero_xor
  rw [syn, crcTableFrom, hbyte0, hbyte1, hbyte2, hzero, hzero, fold, hindex]

/-- Settles O37: every operation of the table path is linear, and only the single bits' syndromes are computed. -/
theorem residualIsAffine : Obligations.ResidualIsAffine := by
  unfold Obligations.ResidualIsAffine
  refine ⟨crcTable_xor, syn_xor, by decide +kernel, fun k => listedSyndromes_getElem? k.isLt, rfl,
    zero_notMem_listedSyndromes, listedSyndromes_nodup, fun k => ?lastByte⟩
  case lastByte =>
    have hbit : 1#24 <<< k.val = (1#8 <<< k.val).setWidth 24 := by
      fin_cases k <;> rfl
    rw [hbit, syn_setWidth]

/-! ## Errors that are detected (R101) -/

theorem syn_bit_ne_zero {k : Nat} (hk : k < 24) : syn (1#24 <<< k) ≠ 0#6 := by
  intro hzero
  have hlisted := listedSyndromes_getElem? hk
  rw [hzero] at hlisted
  exact zero_notMem_listedSyndromes (List.mem_of_getElem? hlisted)

theorem syn_bit_ne {j k : Nat} (hjk : j < k) (hk : k < 24) : syn (1#24 <<< j) ≠ syn (1#24 <<< k) := by
  intro heq
  have hdistinct := List.nodup_iff_getElem?_ne_getElem?.mp listedSyndromes_nodup j k hjk hk
  rw [listedSyndromes_getElem? (hjk.trans hk), listedSyndromes_getElem? hk, heq] at hdistinct
  exact hdistinct rfl

/-- An error in a valid frame is detected, by both paths, when its syndrome is not zero. -/
theorem not_valid_xor {f e : Frame} (hf : validFrame f) (he : syn e ≠ 0#6) :
    ¬ validFrame (f ^^^ e) ∧ num (crcDirect (f ^^^ e)) ≠ 0#6 := by
  have hinvalid : ¬ validFrame (f ^^^ e) := by
    rwa [validFrame, crcTable_xor, hf, BitVec.zero_xor]
  exact ⟨hinvalid, mt (validFrame_iff_num_crcDirect _).mpr hinvalid⟩

/-- Settles O36: the single bits' syndromes are not zero, and no two of them cancel. -/
theorem singleBitErrorsAreDetected : Obligations.SingleBitErrorsAreDetected := by
  unfold Obligations.SingleBitErrorsAreDetected
  refine ⟨fun f k hf hk => not_valid_xor hf (syn_bit_ne_zero hk), fun f j k hf hjk hk => ?double, ?three⟩
  case double =>
    have hsyn : syn (1#24 <<< j ^^^ 1#24 <<< k) ≠ 0#6 := by
      rw [syn_xor, Ne, BitVec.xor_eq_zero_iff]
      exact syn_bit_ne hjk hk
    simpa only [flipBit, BitVec.xor_assoc] using not_valid_xor hf hsyn
  case three =>
    unfold validFrame
    decide +kernel

end Sys2Proof.Machine
end

section
/-! A frame as 18 data bits and the check field that makes it valid; the statement of 43_equivalence_properties.md rule
R103. -/

namespace Sys2Proof.Machine

/-- The check field of a data field: the register over the 18 data bits (R103). -/
def checkField (data : BitVec 18) : BitVec 6 := serN Config.SEED data 18

/-- Six zero bits bring no register but 0 to 0. -/
theorem serN_zero_six_eq_zero_iff (r : Entry) : serN r 0#6 6 = 0#6 ↔ r = 0#6 := by
  revert r
  decide

/-- The last six bits of a frame bring the register to 0 exactly when they are the register itself. -/
theorem serN_six_eq_zero_iff (r : Entry) (f : Frame) : serN r f 6 = 0#6 ↔ f.extractLsb' 0 6 = r := by
  have hslice : serN r f 6 = serN r (f.extractLsb' 0 6) 6 := serN_extractLsb' r f 0 (le_refl 6)
  have hsum : serN r (f.extractLsb' 0 6) 6 = serN (f.extractLsb' 0 6 ^^^ r) 0#6 6 :=
    serN_six_congr (by rw [BitVec.xor_zero, BitVec.xor_comm])
  rw [hslice, hsum, serN_zero_six_eq_zero_iff, BitVec.xor_eq_zero_iff]

theorem validFrame_iff_checkField (f : Frame) :
    validFrame f ↔ f.extractLsb' 0 6 = checkField (f.extractLsb' 6 18) := by
  have hsplit : serN Config.SEED f 24 = serN (checkField (f.extractLsb' 6 18)) f 6 :=
    serN_extractLsb' Config.SEED f 6 (le_refl 18)
  rw [validFrame, crcTable_eq_serN, hsplit, serN_six_eq_zero_iff]

theorem validFrame_iff_group (f : Frame) : validFrame f ↔ group f 3 = num (serialState f 3) := by
  have hsplit : serN (num (serialState f 3)) f 6 = serN Config.SEED f 24 := serN_serialState f (by decide)
  rw [validFrame, crcTable_eq_serN, ← hsplit]
  exact serN_six_eq_zero_iff _ f

theorem validFrame_append_iff (data : BitVec 18) (check : BitVec 6) :
    validFrame (data ++ check) ↔ check = checkField data := by
  rw [validFrame_iff_checkField, BitVec.extractLsb'_append_eq_left, BitVec.extractLsb'_append_eq_right]

theorem validFrame_append_checkField (data : BitVec 18) : validFrame (data ++ checkField data) :=
  (validFrame_append_iff _ _).mpr rfl

/-- A valid frame is its data field with that field's check field. -/
theorem eq_append_checkField {f : Frame} (hf : validFrame f) :
    f.extractLsb' 6 18 ++ checkField (f.extractLsb' 6 18) = f := by
  rw [← (validFrame_iff_checkField f).mp hf]
  exact BitVec.extractLsb'_append_extractLsb'

/-- The valid frames are the data fields. -/
def validFrameEquiv : { f : Frame // validFrame f } ≃ BitVec 18 where
  toFun f := f.val.extractLsb' 6 18
  invFun data := ⟨data ++ checkField data, validFrame_append_checkField data⟩
  left_inv f := Subtype.ext (eq_append_checkField f.property)
  right_inv _ := BitVec.extractLsb'_append_eq_left

/-- The check field of the least data field. -/
theorem checkField_zero : checkField 0x00000#18 = 0x39#6 := by decide +kernel

/-- The check field of the largest data field. -/
theorem checkField_allOnes : checkField 0x3FFFF#18 = 0x17#6 := by decide +kernel

/-- A valid frame is at least the one of the least data field, and at most the one of the largest. -/
theorem validFrame_bounds {f : Frame} (hf : validFrame f) : 0x000039 ≤ f.toNat ∧ f.toNat ≤ 0xFFFFD7 := by
  have hvalue := congrArg BitVec.toNat (eq_append_checkField hf)
  rw [toNat_append_eq_add] at hvalue
  generalize f.extractLsb' 6 18 = data at hvalue
  constructor
  · obtain rfl | hdata := eq_or_ne data 0x00000#18
    · rw [checkField_zero] at hvalue
      bv_omega
    · bv_omega
  · obtain rfl | hdata := eq_or_ne data 0x3FFFF#18
    · rw [checkField_allOnes] at hvalue
      bv_omega
    · bv_omega

/-- Settles O38: the last six bits are consumed to 0 only when they are the register over the data bits, so a valid
frame is a data field with its check field. -/
theorem checkBitsFollowFromDataBits : Obligations.CheckBitsFollowFromDataBits := by
  unfold Obligations.CheckBitsFollowFromDataBits
  refine ⟨fun f => ⟨validFrame_iff_checkField f, validFrame_iff_group f⟩, fun data => ?unique, ?count,
    (validFrame_append_iff 0x00000#18 0x39#6).mpr checkField_zero.symm,
    (validFrame_append_iff 0x3FFFF#18 0x17#6).mpr checkField_allOnes.symm, fun _ => validFrame_bounds⟩
  case unique => exact ⟨checkField data, validFrame_append_checkField data, fun _ => (validFrame_append_iff _ _).mp⟩
  case count => exact Nat.card_eq_of_equiv_fin (validFrameEquiv.trans BitVec.equivFin.toEquiv)

end Sys2Proof.Machine
end

section
/-! The two faults of the block: what raises each, what a faulting command leaves, what follows it; the statements of
60_exceptions.md. -/

namespace Sys2Proof.Machine

/-! ## What raises TableNotBuilt (R111) -/

theorem error_of_map_error {ε α β : Type} {r : Except ε α} {f : α → β} {e : ε} (h : r.map f = .error e) :
    r = .error e := by
  cases r with
  | ok a => cases h
  | error e' => exact congrArg _ (Except.error.inj h)

theorem exists_of_map_ok {ε α β : Type} {r : Except ε α} {f : α → β} {b : β} (h : r.map f = .ok b) :
    ∃ a, b = f a := by
  cases r with
  | ok a => exact ⟨a, (Except.ok.inj h).symm⟩
  | error e => cases h

/-- A fold that stops has stopped in one of its steps. -/
theorem exists_error_of_foldlM_error {ε α β : Type} {f : β → α → Except ε β} {xs : List α} {b : β} {e : ε}
    (h : xs.foldlM f b = .error e) : ∃ b' x, f b' x = .error e := by
  induction xs generalizing b with
  | nil => cases h
  | cons x xs ih =>
    rw [List.foldlM_cons] at h
    match hx : f b x with
    | .ok b' =>
      rw [hx] at h
      exact ih h
    | .error e' =>
      rw [hx] at h
      exact ⟨b, x, hx.trans h⟩

theorem not_built_of_memRead_raised {i : Index} {s : State} {c : Cause} (h : memRead i s = .error (.raised c)) :
    s.TABLE_BUILT = false := by
  by_contra hb
  rw [Bool.not_eq_false] at hb
  cases hv : Table.get s.TABLE i.toNat with
  | some v => simp [memRead_of_get hb hv] at h
  | none => simp [memRead_of_get_none hb hv] at h

theorem not_built_of_foldRun_raised {g : Config.FoldRegs} {f : Frame} {s : State} {c : Cause}
    (h : foldRun g f s = .error (.raised c)) : s.TABLE_BUILT = false := by
  by_contra hb
  rw [Bool.not_eq_false] at hb
  rw [foldRun, requireBuilt_of_built hb] at h
  obtain ⟨_, _, hbyte⟩ := exists_error_of_foldlM_error h
  exact absurd (not_built_of_memRead_raised (error_of_map_error hbyte)) (by simp [hb])

/-- Only VERIFY_TABLE and READ_TABLE raise a fault, and only while TABLE_BUILT = 0. -/
theorem reader_of_answerOf_raised {i : Instr} {s : State} {c : Cause} (h : answerOf i s = .error (.raised c)) :
    s.TABLE_BUILT = false ∧ ((∃ f, i = .verifyTable f) ∨ ∃ k, i = .readTable k) := by
  cases i with
  | buildTable => cases h
  | verifyTable f => exact ⟨not_built_of_foldRun_raised (error_of_map_error h), .inl ⟨f, rfl⟩⟩
  | verifyDirect f => cases h
  | readTable k => exact ⟨not_built_of_memRead_raised (error_of_map_error h), .inr ⟨k, rfl⟩⟩

/-- A command that does not stop responds DONE. -/
theorem status_of_answerOf_ok {i : Instr} {s : State} {response : Response} (h : answerOf i s = .ok response) :
    response.status = 0#2 := by
  cases i with
  | buildTable => exact Except.ok.inj h ▸ rfl
  | verifyTable f =>
    obtain ⟨g, rfl⟩ := exists_of_map_ok h
    rfl
  | verifyDirect f => exact Except.ok.inj h ▸ rfl
  | readTable k =>
    obtain ⟨v, rfl⟩ := exists_of_map_ok h
    rfl

/-! ## The responses of a command and of a command word -/

/-- The one response appended in `t` has status DONE. -/
def RespondedDone (s t : State) : Prop :=
  ∃ r : ResponseWord, r.extractLsb' 8 2 = 0#2 ∧ t.responses = s.responses ++ [r]

/-- A DONE response is no fault. -/
theorem RespondedDone.ne {s t : State} (h : RespondedDone s t) {r : ResponseWord} (hr : r.extractLsb' 8 2 ≠ 0#2) :
    t.responses ≠ s.responses ++ [r] := by
  obtain ⟨r', hdone, ht⟩ := h
  exact fun ht' => hr (word_eq_of_responses ht' ht ▸ hdone)

/-- A command that ends in a next state has responded DONE, or is a reader of the table that is not built and has
answered TableNotBuilt and done nothing else. -/
theorem exec_done_or_tableNotBuilt {i : Instr} {s t : State} (h : exec i s = .next t) :
    RespondedDone s t ∨
      (s.TABLE_BUILT = false ∧ ((∃ f, i = .verifyTable f) ∨ ∃ k, i = .readTable k)) ∧ t = s.answered 0x200#10 := by
  match ha : answerOf i s with
  | .ok response =>
    rw [exec_eq_finish, ha] at h
    obtain rfl := Host.Outcome.next.inj h
    exact .inl ⟨response.word, (word_status response).trans (status_of_answerOf_ok ha), by simp⟩
  | .error (.raised c) =>
    obtain ⟨hb, hi⟩ := reader_of_answerOf_raised ha
    exact .inr ⟨⟨hb, hi⟩, Host.Outcome.next.inj (h.symm.trans (reader_faults_of_not_built hi hb))⟩
  | .error (.noValue idx) =>
    rw [exec_eq_finish, ha] at h
    cases h

/-- The three ways a command word ends in a next state. -/
theorem runCommand_cases {w : Command} {s t : State} (h : runCommand w s = .next t) :
    ((∃ e, decode w = .error e) ∧ t = s.answered 0x100#10) ∨
    RespondedDone s t ∨
    (s.TABLE_BUILT = false ∧ ((∃ f, decode w = .ok (.verifyTable f)) ∨ ∃ k, decode w = .ok (.readTable k))) ∧
      t = s.answered 0x200#10 := by
  match hd : decode w with
  | .error e =>
    exact .inl ⟨⟨e, rfl⟩, Host.Outcome.next.inj (h.symm.trans (runCommand_of_decode_error ⟨e, hd⟩ s))⟩
  | .ok i =>
    rw [runCommand_of_decode hd] at h
    simpa only [Except.ok.injEq] using .inr (exec_done_or_tableNotBuilt h)

/-- Two responses that leave the same state are the same word. -/
theorem answered_injective (s : State) : Function.Injective s.answered := fun _ _ h =>
  word_eq_of_responses rfl (congrArg State.responses h)

/-- Settles O39: of the three ways a command word ends, one alone answers 0x200. -/
theorem useBeforeBuildAnswersTableNotBuilt : Obligations.UseBeforeBuildAnswersTableNotBuilt := by
  unfold Obligations.UseBeforeBuildAnswersTableNotBuilt
  refine fun s w => ⟨?raises, fun h => ?only⟩
  case raises =>
    rintro ⟨hb, ⟨f, hd⟩ | ⟨i, hd⟩⟩
    · exact (runCommand_of_decode hd s).trans (exec_verifyTable_of_not_built f hb)
    · exact (runCommand_of_decode hd s).trans (exec_readTable_of_not_built i hb)
  case only =>
    obtain ⟨-, ht⟩ | hdone | ⟨hreader, -⟩ := runCommand_cases h
    · exact absurd (answered_injective s ht) (by decide)
    · exact absurd rfl (hdone.ne (by decide))
    · exact hreader

/-- Settles O40: a command word that responds with a fault has not responded DONE, and otherwise it only answers. -/
theorem faultsChangeNoPersistentState : Obligations.FaultsChangeNoPersistentState := by
  unfold Obligations.FaultsChangeNoPersistentState
  intro s t w r h hr hfault
  have hstatus : r.extractLsb' 8 2 ≠ 0#2 := by obtain rfl | rfl := hfault <;> decide
  have hanswered {r' : ResponseWord} (ht : t = s.answered r') : t = s.answered r := by
    rw [ht, word_eq_of_responses hr (congrArg State.responses ht)]
  have ht : t = s.answered r := by
    obtain ⟨-, ht⟩ | hdone | ⟨-, ht⟩ := runCommand_cases h
    · exact hanswered ht
    · exact absurd hr (hdone.ne hstatus)
    · exact hanswered ht
  subst ht
  exact ⟨rfl, rfl, rfl⟩

/-- Settles O41: an illegal word is answered before the state is looked at, and a command's two ways to end are DONE and
TableNotBuilt. -/
theorem illegalCommandComesFirst : Obligations.IllegalCommandComesFirst := by
  unfold Obligations.IllegalCommandComesFirst
  refine ⟨fun s w e hd => runCommand_of_decode_error ⟨e, hd⟩ s, fun s t w i hd h => ?legal,
    runCommand_of_decode_error ⟨.readUpperNotZero, by decide⟩⟩
  case legal =>
    rw [runCommand_of_decode hd] at h
    obtain hdone | ⟨-, rfl⟩ := exec_done_or_tableNotBuilt h
    · exact hdone.ne (by decide)
    · exact fun ht => absurd (word_eq_of_responses (answered_responses s _) ht) (by decide)

/-! ## Every command completes (R110), also after a fault (R116) -/

theorem exec_completes {s : State} (hs : s.Inv) (i : Instr) : ∃ t, exec i s = .next t := by
  cases i with
  | buildTable => exact ⟨_, exec_buildTable s⟩
  | verifyTable f =>
    obtain ⟨r, h, -⟩ := reader_tells_built hs (.inl ⟨f, rfl⟩)
    exact ⟨_, h⟩
  | verifyDirect f => exact ⟨_, exec_verifyDirect f s⟩
  | readTable k =>
    obtain ⟨r, h, -⟩ := reader_tells_built hs (.inr ⟨k, rfl⟩)
    exact ⟨_, h⟩

theorem runCommand_completes {s : State} (hs : s.Inv) (w : Command) : ∃ t, runCommand w s = .next t := by
  match hd : decode w with
  | .error e => exact ⟨_, runCommand_of_illegal hd s⟩
  | .ok i => exact (runCommand_of_decode hd s).symm ▸ exec_completes hs i

theorem step_completes {s : State} (hs : s.Inv) : ∃ t, step s = .next t := by
  match hp : s.pending with
  | [] => exact ⟨_, step_idle hp⟩
  | .reset :: rest => exact ⟨_, step_reset hp⟩
  | .command w :: rest =>
    have htaken : ({ s with pending := rest } : State).Inv := hs.of_same ⟨rfl, rfl⟩
    exact (step_command hp).symm ▸ runCommand_completes htaken w

/-- Settles O44: a reader finds its entries or faults, and the other commands, a reset and the idle step never stop. -/
theorem everyStepCompletes : Obligations.EveryStepCompletes := by
  unfold Obligations.EveryStepCompletes
  exact ⟨fun _ hs => step_completes hs, fun _ i hs => exec_completes hs i⟩

/-- VERIFY_TABLE right after BUILD_TABLE, from any state at all, answers its verdict. -/
theorem exec_verifyTable_after_buildTable (s : State) (f : Frame) : ∃ t, exec .buildTable s = .next t ∧
    exec (.verifyTable f) t = .next (t.answered (verdictWord (crcTable f))) := by
  refine ⟨_, exec_buildTable s, ?_⟩
  rw [exec_verifyTable_of_holds f rfl (filledTable_holdsEntries s.TABLE), respond_eq_answered,
    word_doneVerify_registerIsZero]

/-- Settles O42: a fault leaves the persistent state, on which alone the next command depends. -/
theorem faultsAreFollowedByTheNextCommand : Obligations.FaultsAreFollowedByTheNextCommand := by
  unfold Obligations.FaultsAreFollowedByTheNextCommand
  refine ⟨fun s c i hs => ?next, fun s f hb => ?recovers⟩
  case next =>
    obtain ⟨t, h⟩ := exec_completes hs i
    have hsame : s.SamePersistent (takeFault c s) := ⟨rfl, rfl⟩
    obtain ⟨t', r, h', ⟨hbuilt, htable⟩, hr, hr'⟩ := exec_samePersistent hsame h
    exact ⟨t, t', r, h, h', ⟨hbuilt.symm, htable.symm⟩, hr, hr'⟩
  case recovers =>
    obtain ⟨t, hbuild, hverify⟩ := exec_verifyTable_after_buildTable (s.answered 0x200#10) f
    exact ⟨_, t, exec_verifyTable_of_not_built f hb, rfl, hbuild, hverify⟩

end Sys2Proof.Machine
end

section
/-! What a reset and each command leave for the next command to read, the boot sequence as a run, and the statements of
70_reset_and_hazards.md. -/

namespace Sys2Proof.Machine

/-! ## The table after a command (R134) -/

/-- A command other than BUILD_TABLE leaves the persistent state as it is. -/
theorem exec_keeps_persistent {i : Instr} {s t : State} (hi : i ≠ .buildTable) (h : exec i s = .next t) :
    t.SamePersistent s := by
  obtain ⟨response, rfl⟩ | ⟨hbuild, -⟩ := exec_next h
  · exact ⟨rfl, rfl⟩
  · exact absurd hbuild hi

/-- With every entry in place no command word changes what an index reads as. -/
theorem runCommand_keeps_get {w : Command} {s t : State} (ht : s.TABLE.holdsEntries) (h : runCommand w s = .next t)
    (j : Nat) : Table.get t.TABLE j = Table.get s.TABLE j := by
  obtain ⟨response, rfl⟩ | ⟨-, g, rfl⟩ := runCommand_next h
  · rfl
  · rw [builderRun_eq]
    exact filledTable_get_of_holds ht j

theorem runCommand_encode (i : Instr) (s : State) : runCommand (encode i) s = exec i s :=
  runCommand_of_decode (decode_encode i) s

/-- Settles O12: only BUILD_TABLE writes, and over a table that holds every entry its writes change no read. -/
theorem builtTableIsNeverModified : Obligations.BuiltTableIsNeverModified := by
  unfold Obligations.BuiltTableIsNeverModified
  refine ⟨?reader, ?build, ?word⟩
  case reader => exact fun _ _ _ hi h => (exec_keeps_persistent hi h).2
  case build => exact fun s _ hs hb h => runCommand_keeps_get (hs.holds hb) ((runCommand_encode .buildTable s).trans h)
  case word => exact fun _ _ _ hs hb => runCommand_keeps_get (hs.holds hb)

/-! ## Reset (R130, R131) -/

/-- Settles O49: the reset event empties the table, and a block with an empty table completes every command word. -/
theorem resetClearsTheTable : Obligations.ResetClearsTheTable := by
  unfold Obligations.ResetClearsTheTable
  refine ⟨fun s => ⟨resetBlock_TABLE_BUILT s, Table.get_nil, ?same⟩, reset_TABLE_BUILT, Table.get_nil, ?poly, ?seed,
    fun s w => ?ready⟩
  case same => exact ⟨rfl, rfl⟩
  case poly => rfl
  case seed => rfl
  case ready => exact runCommand_completes (resetBlock_Inv s) w

/-- Settles O50: both readers find TABLE_BUILT = 0, and BUILD_TABLE writes the entries that the invariant says the table
held before. -/
theorem resetLosesTheTable : Obligations.ResetLosesTheTable := by
  unfold Obligations.ResetLosesTheTable
  intro s hs hb
  have hcleared : (resetBlock s).TABLE_BUILT = false := resetBlock_TABLE_BUILT s
  refine ⟨fun f => exec_verifyTable_of_not_built f hcleared, fun i => exec_readTable_of_not_built i hcleared,
    _, exec_buildTable _, rfl, fun i => ?rebuilt⟩
  case rebuilt => exact (filledTable_get _ i).trans (hs.holds hb i).symm

/-! ## The boot sequence (R132) -/

/-- A run of any machine takes its first step and goes on from there. -/
theorem run_succ_of_step {M : Host.Core} {s t : M.State} (n : Nat) (h : M.step s = .next t) :
    M.run (n + 1) s = M.run n t := by
  rw [Host.Core.run, h]

/-- A run whose next event is a command goes on from the state the command leaves. -/
theorem run_command {s t : State} {i : Instr} {rest : List HostEvent} (n : Nat)
    (hp : s.pending = .command (encode i) :: rest) (h : exec i { s with pending := rest } = .next t) :
    Sys2Proof.core.run (n + 1) s = Sys2Proof.core.run n t :=
  run_succ_of_step n ((step_of_decode hp (decode_encode i)).trans h)

/-- Settles O52: BUILD_TABLE leaves a table that holds every entry, which the two readers read; without it both find
TABLE_BUILT = 0. -/
theorem buildOnceThenVerify : Obligations.BuildOnceThenVerify := by
  unfold Obligations.BuildOnceThenVerify
  refine fun f i => ⟨?built, ?notBuilt⟩
  case built =>
    have hfilled := filledTable_holdsEntries State.reset.TABLE
    rw [run_command 2 rfl (exec_buildTable _), run_command 1 rfl (exec_verifyTable_of_holds f rfl hfilled),
      run_command 0 rfl (exec_readTable_of_holds i rfl hfilled), ← word_doneVerify_registerIsZero, ← word_doneRead]
    exact ⟨_, rfl, rfl⟩
  case notBuilt =>
    rw [run_command 2 rfl (exec_verifyDirect f _), run_command 1 rfl (exec_verifyTable_of_not_built f rfl),
      run_command 0 rfl (exec_readTable_of_not_built i rfl), ← word_doneVerify_registerIsZero,
      ← vectorIsZero_eq_registerIsZero]
    exact ⟨_, rfl, rfl⟩

/-! ## The order of verifications (R135) -/

theorem ne_buildTable_of_isVerification {i : Instr} (h : isVerification i = true) : i ≠ .buildTable := by
  rintro rfl
  cases h

theorem effectOf_of_ne_buildTable {i : Instr} (h : i ≠ .buildTable) (s : State) : effectOf i s = s := by
  cases i with
  | buildTable => exact absurd rfl h
  | verifyTable f => rfl
  | verifyDirect f => rfl
  | readTable idx => rfl

/-- A command other than BUILD_TABLE gives one answer, and does nothing else, in all states with the same persistent
state. -/
theorem exec_answers_uniformly {i : Instr} {s : State} (hs : s.Inv) (hi : i ≠ .buildTable) :
    ∃ r : ResponseWord, ∀ s', s.SamePersistent s' → exec i s' = .next (s'.answered r) := by
  obtain ⟨t, h⟩ := exec_completes hs i
  rw [exec_eq_finish] at h
  obtain ⟨response, -, hfinish⟩ := finish_next_uniform h
  refine ⟨response.word, fun s' hsame => ?_⟩
  rw [exec_eq_finish, ← answerOf_congr i hsame, hfinish, effectOf_of_ne_buildTable hi, respond_eq_answered]

/-- Settles O55: a verification leaves the persistent state, on which alone the next command depends. -/
theorem verificationsLeaveNothingBehind : Obligations.VerificationsLeaveNothingBehind := by
  unfold Obligations.VerificationsLeaveNothingBehind
  refine ⟨fun i j s t hs hi h => ?next, fun i j s hs hi hj => ?order⟩
  case next =>
    have hsame : t.SamePersistent s := exec_keeps_persistent (ne_buildTable_of_isVerification hi) h
    have ht : t.Inv := exec_keeps_Inv hs h
    obtain ⟨u, hafter⟩ := exec_completes ht j
    obtain ⟨u', r, halone, huu', hr, hr'⟩ := exec_samePersistent hsame hafter
    exact ⟨u, u', r, hafter, halone, hr, hr', huu'⟩
  case order =>
    obtain ⟨a, ha⟩ := exec_answers_uniformly hs (ne_buildTable_of_isVerification hi)
    obtain ⟨b, hb⟩ := exec_answers_uniformly hs (ne_buildTable_of_isVerification hj)
    exact ⟨a, b, _, _, ha s ⟨rfl, rfl⟩, hb _ ⟨rfl, rfl⟩, hb s ⟨rfl, rfl⟩, ha _ ⟨rfl, rfl⟩⟩

end Sys2Proof.Machine
end
